-- ==== Sys2Proof/Word.lean ====
section
/-! DEFINITION. The engine's value types: the word, the byte, the 64-bit unsigned value and the slot index (rules R7, R8, R72 of spec/). -/

namespace Sys2Proof

/-- A `word`: 32 bits, unsigned (R8, R9); `+` on it is addition modulo 2^32. -/
abbrev Word := BitVec 32

/-- A `byte`: 8 bits (R8). -/
abbrev Byte := BitVec 8

/-- A `u64`: 64 bits, unsigned, wrapping modulo 2^64 (R8, R9); also the width of a command word (R70). -/
abbrev U64 := BitVec 64

/-- A slot index as a command carries it: the four bits CTX or SRC, unsigned 0..15 (R72, R73). -/
abbrev SlotIdx := Fin 16

end Sys2Proof
end

