-- ==== Sys2Proof/Config.lean ====
section
/-! DEFINITION. What the spec leaves to an implementation (NCTX, ENGINE_BASE) and the free values it leaves open. -/

namespace Sys2Proof

/-- NCTX of the machine that `State.reset` stands for. The spec leaves NCTX OPEN, 1 ≤ NCTX ≤ 16 (R7, D4), and its
vectors use 2. A state carries its own NCTX (the number of its slots), so statements over states hold for every
NCTX. DESIGN CHOICE (notes/assumptions/1.md), unsafe for a claim about `State.reset` alone. -/
def Config.resetNctx : Nat := 2

/-- ENGINE_BASE, the place of the port and the registers in a host's address map: OPEN, and no rule reads it (R50, D20). -/
opaque Config.engineBase : Nat

/-- The free words: draw number `n` of a value the spec leaves unspecified (DOUT after the reset event, and a read
of DOUT while DV = 0: R29, R230, U4). No body: nothing constrains it. DESIGN CHOICE (notes/assumptions/3.md), safe. -/
opaque Config.freeWord : Nat → Word

end Sys2Proof
end

