-- ==== Sys2Proof/Syntax.lean ====
section
/-! DEFINITION. The command set RMD160-CE v1 as abstract syntax: one constructor of `Instr` per row of the opcode table (R78), and the decoder's two verdicts (R77). -/

namespace Sys2Proof

/-- A command with its fields, as the decoder returns it (R77, R78). -/
inductive Instr where
  /-- INIT c: construct a context in slot `c` (R161). -/
  | init (c : SlotIdx)
  /-- ABSORB c, bytes: absorb the data lanes 0..n-1, 1 ≤ n ≤ 4, in this order (R163, R76). -/
  | absorb (c : SlotIdx) (bytes : List Byte)
  /-- DIGEST c: finalize slot `c` without changing it (R169). -/
  | digest (c : SlotIdx)
  /-- COPY d, s: clone slot `s` into slot `d` (R172). -/
  | copy (d s : SlotIdx)
  deriving DecidableEq, Repr

/-- Why a word is no command: the decoder's illegal verdicts (R77). -/
inductive Illegal where
  /-- OPC is none of 0x01..0x04 (R79). -/
  | opcode
  /-- OPC is legal and some reserved bit of cw[31:18] is set (R80). -/
  | reserved
  deriving DecidableEq, Repr

/-- The result of decoding one command word (R77). -/
inductive Verdict where
  | command (i : Instr)
  | illegal (e : Illegal)
  deriving DecidableEq, Repr

end Sys2Proof
end

