-- ==== Sys2Proof/WellFormed.lean ====
section
/-! DEFINITION. Which terms of `Instr` stand for a command word: an ABSORB carries 1 to 4 bytes (R70, R74). Slot indexes need no check, all of 0..15 being encodable (R72, R73). -/

namespace Sys2Proof

/-- An ABSORB carries at least one byte: a zero-byte update has no command (R74). -/
def Instr.hasByte : Instr → Bool
  | .init _ => true
  | .absorb _ bytes => 1 ≤ bytes.length
  | .digest _ => true
  | .copy _ _ => true

/-- An ABSORB carries at most four bytes (R70, R74). -/
def Instr.fitsLanes : Instr → Bool
  | .init _ => true
  | .absorb _ bytes => bytes.length ≤ 4
  | .digest _ => true
  | .copy _ _ => true

/-- The instruction is one a command word can carry. -/
def Instr.wf (i : Instr) : Bool := i.hasByte && i.fitsLanes

end Sys2Proof
end

