-- ==== Sys2Proof/Decode.lean ====
section
/-! DEFINITION. Decoding of the 64-bit command word (R70 to R82) and, after it, the encoder written from the same fields. -/

namespace Sys2Proof

/-! ## Fields of the command word (R70) -/

/-- `OPC = cw[7:0]` (R71). -/
def opcField (cw : U64) : BitVec 8 := cw.extractLsb' 0 8

/-- `CTX = cw[11:8]` (R72). -/
def ctxField (cw : U64) : SlotIdx := ⟨(cw.extractLsb' 8 4).toNat, (cw.extractLsb' 8 4).isLt⟩

/-- `SRC = cw[15:12]` (R73). -/
def srcField (cw : U64) : SlotIdx := ⟨(cw.extractLsb' 12 4).toNat, (cw.extractLsb' 12 4).isLt⟩

/-- `NBM1 = cw[17:16]` (R74). -/
def nbm1Field (cw : U64) : BitVec 2 := cw.extractLsb' 16 2

/-- `RSV = cw[31:18]` (R75). -/
def rsvField (cw : U64) : BitVec 14 := cw.extractLsb' 18 14

/-- `lane(k) = cw[32+8k+7 : 32+8k]` (R76, R55). -/
def lane (cw : U64) (k : Nat) : Byte := cw.extractLsb' (32 + 8 * k) 8

/-- The message bytes of an ABSORB: lanes 0..n-1 with `n = NBM1 + 1` (R74, R76). -/
def lanes (cw : U64) : List Byte := (List.range ((nbm1Field cw).toNat + 1)).map (lane cw)

/-! ## The decoder (R77) -/

/-- The command the opcode selects, `none` for an illegal opcode (R78, R79). -/
def byOpcode (cw : U64) : Option Instr :=
  if opcField cw = 0x01#8 then some (.init (ctxField cw))
  else if opcField cw = 0x02#8 then some (.absorb (ctxField cw) (lanes cw))
  else if opcField cw = 0x03#8 then some (.digest (ctxField cw))
  else if opcField cw = 0x04#8 then some (.copy (ctxField cw) (srcField cw))
  else none

/-- `decode(cw)`, total on every 64-bit word: the opcode is judged first, then the reserved bits; a field the command
does not read is ignored (R77, R81). -/
def decode (cw : U64) : Verdict :=
  match byOpcode cw with
  | none => .illegal .opcode
  | some i => if rsvField cw ≠ 0#14 then .illegal .reserved else .command i

/-- The command the decoder reads from a word given as the opcode table numbers its bits; bits above `nbits` are 0. -/
def decodeTableWord (nbits w : Nat) : Option Instr :=
  match decode (BitVec.ofNat 64 (w % 2 ^ nbits)) with
  | .command i => some i
  | .illegal _ => none

/-! ## The opcode map as rows (R78) -/

/-- One row of the opcode map. -/
structure OpcodeRow where
  mnemonic : String
  mask : U64
  pattern : U64
  deriving DecidableEq, Repr

/-- The mask of every row: it covers OPC and RSV (R78). -/
def rowMask : U64 := 0x00000000FFFC00FF#64

/-- The opcode map (R78). -/
def opcodeRows : List OpcodeRow :=
  [⟨"INIT", rowMask, 0x0000000000000001#64⟩, ⟨"ABSORB", rowMask, 0x0000000000000002#64⟩,
   ⟨"DIGEST", rowMask, 0x0000000000000003#64⟩, ⟨"COPY", rowMask, 0x0000000000000004#64⟩]

/-- The mnemonic of a command (R78). -/
def Instr.mnemonic : Instr → String
  | .init _ => "INIT"
  | .absorb _ _ => "ABSORB"
  | .digest _ => "DIGEST"
  | .copy _ _ => "COPY"

/-! ## The encoder -/

/-- A command word from its six fields, most significant first (R70). -/
def packWord (data : BitVec 32) (rsv : BitVec 14) (nbm1 : BitVec 2) (src ctx : SlotIdx) (opc : BitVec 8) : U64 :=
  data ++ rsv ++ nbm1 ++ BitVec.ofNat 4 src.val ++ BitVec.ofNat 4 ctx.val ++ opc

/-- The DATA field that carries `bytes` in lanes 0, 1, …, the lanes above them zero (R76, R81). -/
def dataField (bytes : List Byte) : BitVec 32 :=
  bytes.getD 3 0#8 ++ bytes.getD 2 0#8 ++ bytes.getD 1 0#8 ++ bytes.getD 0 0#8

/-- The canonical command word of an instruction: the bits the command ignores are zero (R78, R81). -/
def encode : Instr → U64
  | .init c => packWord 0#32 0#14 0#2 0 c 0x01#8
  | .absorb c bytes => packWord (dataField bytes) 0#14 (BitVec.ofNat 2 (bytes.length - 1)) 0 c 0x02#8
  | .digest c => packWord 0#32 0#14 0#2 0 c 0x03#8
  | .copy d s => packWord 0#32 0#14 0#2 s d 0x04#8

/-- The bits of a word the command reads (with OPC and RSV): every other bit is ignored (R81). -/
def careMask : Instr → U64
  | .init _ => 0x00000000FFFC0FFF#64
  | .absorb _ bytes => 0x00000000FFFF0FFF#64 ||| (((1#64 <<< (8 * bytes.length)) - 1#64) <<< 32)
  | .digest _ => 0x00000000FFFC0FFF#64
  | .copy _ _ => 0x00000000FFFCFFFF#64

end Sys2Proof
end

