-- ==== Sys2Proof/Machine/State.lean ====
section
/-! DEFINITION. The engine's state (R20 to R30), the host's interactions with it (R51, R66), and the state after reset (R230, R231). -/

namespace Sys2Proof.Machine

/-- The result codes of `STATUS.LAST` (R201). The values 5..15 are never written, so they have no name here (U9). -/
inductive ResultCode where
  | ok
  | errOpcode
  | errReserved
  | errCtx
  | errNoctx
  deriving DecidableEq, Repr

/-- Five 32-bit words h0..h4: a chaining value (R22), and the five digest output registers (R29). -/
structure HashState where
  h0 : Word
  h1 : Word
  h2 : Word
  h3 : Word
  h4 : Word
  deriving DecidableEq, Repr

/-- A digest context: what a valid slot holds (R21). `BLEN` is `buf.length`. -/
structure Context where
  /-- `H[0..4]`, the chaining value (R22). -/
  h : HashState
  /-- `CNT`, the bytes absorbed since INIT, mod 2^64 (R23). -/
  cnt : U64
  /-- `BUF`, the pending bytes, oldest first (R24). -/
  buf : List Byte
  deriving DecidableEq, Repr

/-- The fields of STATUS that something writes (R28). Its reserved bits read as 0 and nothing writes them (U8), so
they are no state: `Status.word` puts them in place. -/
structure Status where
  /-- LAST, bits [3:0]. -/
  last : ResultCode
  /-- STICKY, bit [4]. -/
  sticky : Bool
  /-- DV, bit [5]. -/
  dv : Bool
  /-- DCTX, bits [11:8]. -/
  dctx : SlotIdx
  deriving DecidableEq, Repr

/-- One interaction of the host with the engine: the four access paths of R51, R66. -/
inductive HostAction where
  /-- A 64-bit word written to the command port. -/
  | command (cw : U64)
  /-- A read of STATUS. -/
  | readStatus
  /-- A read of DOUT[w], w = 0..4. -/
  | readDout (w : Fin 5)
  /-- The reset event. -/
  | reset
  deriving DecidableEq, Repr

/-- What one read returned to the host (R51, R241). -/
inductive Reading where
  | status (v : Word)
  | dout (w : Fin 5) (v : Word)
  deriving DecidableEq, Repr

/-- The engine's state (R20) and the host's side of a run (R66, R241). -/
structure State where
  /-- The context slots `Slot[0..NCTX-1]`; NCTX is the list's length. `VALID[c]` is 1 exactly when the context is
  present: R25 allows this form, an invalid slot holding no value at all. -/
  slots : List (Option Context)
  /-- The STATUS register (R28). -/
  status : Status
  /-- DOUT[0..4] (R29). -/
  dout : HashState
  /-- The host's interactions still to come, in the order the engine takes them (R61, R63): the MODEL's own field. -/
  pending : List HostAction
  /-- What the host's reads have returned so far, oldest first (R241): the MODEL's own field. -/
  readings : List Reading
  /-- How many free words have been drawn: the MODEL's own field (notes/assumptions/3.md). -/
  draws : Nat
  deriving DecidableEq, Repr

/-- The machine stops with a fault: never. The engine has no fault beyond the status codes (R66, R200), so this type
has no constructor and nothing raises it. -/
inductive Fault where
  deriving DecidableEq, Repr

/-- The machine refuses an instruction. -/
inductive Refusal where
  /-- An instruction of the opcode table that has no meaning in the model. No arm of `exec` raises it: all four
  commands have their meaning. Where one did, it would be safe: the model would stop where the engine goes on. -/
  | notModelled (mnemonic : String)
  deriving DecidableEq, Repr

/-- STATUS after reset: 0x00000000 (R230, R231). -/
def Status.reset : Status := { last := .ok, sticky := false, dv := false, dctx := 0 }

/-- The machine with `n` slots right after reset (R230, R231): every VALID bit 0, STATUS 0. DOUT is unspecified
there; the model names 0 (DESIGN CHOICE, notes/assumptions/2.md, unsafe), which no read returns while DV = 0. -/
def State.resetWith (n : Nat) : State :=
  { slots := List.replicate n none
    status := Status.reset
    dout := ⟨0, 0, 0, 0, 0⟩
    pending := []
    readings := []
    draws := 0 }

/-- The machine right after reset, with the NCTX of `Config.resetNctx`. -/
def State.reset : State := State.resetWith Config.resetNctx

end Sys2Proof.Machine
end

