-- ==== Sys2Proof/Machine/Flags.lean ====
section
/-! DEFINITION. The STATUS register: its result codes, its 32-bit word, and how each event changes it (R28, R201 to R206). The engine has no other flags (R33). -/

namespace Sys2Proof.Machine

/-- The 4-bit number of a result code (R201). -/
def ResultCode.number : ResultCode → BitVec 4
  | .ok => 0#4
  | .errOpcode => 1#4
  | .errReserved => 2#4
  | .errCtx => 3#4
  | .errNoctx => 4#4

/-- The word a STATUS read returns: LAST [3:0], STICKY [4], DV [5], DCTX [11:8], and [7:6] and [31:12] read as 0 (R28). -/
def Status.word (st : Status) : Word :=
  0#20 ++ BitVec.ofNat 4 st.dctx.val ++ 0#2 ++ BitVec.ofBool st.dv ++ BitVec.ofBool st.sticky ++ st.last.number

/-- STATUS after `raise Err(code)`: LAST and STICKY are written, DV and DCTX keep their values (R203). -/
def Status.afterError (code : ResultCode) (st : Status) : Status := { st with last := code, sticky := true }

/-- STATUS after a command completed: LAST is OK, STICKY keeps its value (R204). -/
def Status.afterOk (st : Status) : Status := { st with last := .ok }

/-- STATUS as a successful DIGEST on slot `c` writes DV and DCTX (R206, R169). -/
def Status.afterDigest (c : SlotIdx) (st : Status) : Status := { st with dv := true, dctx := c }

/-- The result code of an illegal verdict (R201). -/
def illegalCode : Illegal → ResultCode
  | .opcode => .errOpcode
  | .reserved => .errReserved

end Sys2Proof.Machine
end

