-- ==== Sys2Proof/Machine/Bytes.lean ====
section
/-! DEFINITION. Byte order and rotation: the little-endian readings of words, lengths and digests (R11, R52 to R54), and `rol32` (R10). -/

namespace Sys2Proof.Machine

/-- `rol32(v, s)`, the 32-bit left rotation for 0 ≤ s ≤ 31 (R10). -/
def rol32 (v : Word) (s : Nat) : Word := (v <<< s) ||| (v >>> (32 - s))

/-- `le32(s, j)`: bytes 4j..4j+3 as a word, the first the least significant (R11, R52). Its callers pass 64 bytes
(or the 20 of the initial value), so the value read past the end is never used. -/
def le32 (bytes : List Byte) (j : Nat) : Word :=
  bytes.getD (4 * j + 3) 0#8 ++ bytes.getD (4 * j + 2) 0#8 ++ bytes.getD (4 * j + 1) 0#8 ++ bytes.getD (4 * j) 0#8

/-- `le32bytes(w)`: the four bytes of a word, least significant first (R11, R54). -/
def le32bytes (w : Word) : List Byte := (List.range 4).map fun k => w.extractLsb' (8 * k) 8

/-- `le64bytes(v)`: the eight bytes of a 64-bit value, least significant first (R11, R53). -/
def le64bytes (v : U64) : List Byte := (List.range 8).map fun k => v.extractLsb' (8 * k) 8

/-- Word `w` of the five (R29, R136). -/
def HashState.get (h : HashState) (w : Fin 5) : Word :=
  match w with
  | 0 => h.h0
  | 1 => h.h1
  | 2 => h.h2
  | 3 => h.h3
  | 4 => h.h4

/-- The 20 digest bytes: little-endian per word, in word order (R54, R170). -/
def digestBytes (h : HashState) : List Byte :=
  le32bytes h.h0 ++ le32bytes h.h1 ++ le32bytes h.h2 ++ le32bytes h.h3 ++ le32bytes h.h4

end Sys2Proof.Machine
end

