-- ==== Sys2Proof/Machine/Tables.lean ====
section
/-! DEFINITION. The engine's read-only tables, its round functions and its initial value (R31, R100 to R113). They are constants: no state holds them and no command writes them (R113). -/

namespace Sys2Proof.Machine

/-- ρ as its sixteen values (R100). -/
def rhoValues : Vector (Fin 16) 16 := #v[7, 4, 13, 1, 10, 6, 15, 3, 12, 0, 9, 5, 2, 14, 11, 8]

/-- The permutation ρ (R100). -/
def rho (i : Fin 16) : Fin 16 := rhoValues[i]

/-- The permutation `π(i) = (9i+5) mod 16` (R101). -/
def piPerm (i : Fin 16) : Fin 16 := ⟨(9 * i.val + 5) % 16, Nat.mod_lt _ (by decide)⟩

/-- ρ applied `r` times, each time after what came before (R102, R104). -/
def rhoIter : Nat → Fin 16 → Fin 16
  | 0, i => i
  | r + 1, i => rho (rhoIter r i)

/-- The left line's message-word permutation `PL[r][i]` (R102). -/
def PL (r : Fin 5) (i : Fin 16) : Fin 16 := rhoIter r.val i

/-- The right line's message-word permutation `PR[r][i]` (R103). -/
def PR (r : Fin 5) (i : Fin 16) : Fin 16 := rhoIter r.val (piPerm i)

/-- The base rotation amounts of round 0 (R105). -/
def rotRow0 : Vector Nat 16 := #v[11, 14, 15, 12, 5, 8, 7, 9, 11, 13, 14, 15, 6, 7, 9, 8]
/-- The base rotation amounts of round 1 (R105). -/
def rotRow1 : Vector Nat 16 := #v[12, 13, 11, 15, 6, 9, 9, 7, 12, 15, 11, 13, 7, 8, 7, 7]
/-- The base rotation amounts of round 2 (R105). -/
def rotRow2 : Vector Nat 16 := #v[13, 15, 14, 11, 7, 7, 6, 8, 13, 14, 13, 12, 5, 5, 6, 9]
/-- The base rotation amounts of round 3 (R105). -/
def rotRow3 : Vector Nat 16 := #v[14, 11, 12, 14, 8, 6, 5, 5, 15, 12, 15, 14, 9, 9, 8, 6]
/-- The base rotation amounts of round 4 (R105). -/
def rotRow4 : Vector Nat 16 := #v[15, 12, 13, 13, 9, 5, 8, 6, 14, 11, 12, 11, 8, 6, 5, 5]

/-- The base rotation amount `S[r][k]` of round `r` and message word `k` (R105). -/
def rotBase (r : Fin 5) (k : Fin 16) : Nat :=
  match r with
  | 0 => rotRow0[k]
  | 1 => rotRow1[k]
  | 2 => rotRow2[k]
  | 3 => rotRow3[k]
  | 4 => rotRow4[k]

/-- The left line's rotation schedule `SL[r][i] = S[r][PL[r][i]]` (R106). -/
def SL (r : Fin 5) (i : Fin 16) : Nat := rotBase r (PL r i)

/-- The right line's rotation schedule `SR[r][i] = S[r][PR[r][i]]` (R106). -/
def SR (r : Fin 5) (i : Fin 16) : Nat := rotBase r (PR r i)

/-- The left line's round constants: 0 and floor(2^30 · √k) for k = 2, 3, 5, 7 (R107, R108). -/
def KL (r : Fin 5) : Word :=
  match r with
  | 0 => 0x00000000#32
  | 1 => 0x5A827999#32
  | 2 => 0x6ED9EBA1#32
  | 3 => 0x8F1BBCDC#32
  | 4 => 0xA953FD4E#32

/-- The right line's round constants: floor(2^30 · ∛k) for k = 2, 3, 5, 7, and 0 (R107, R109). -/
def KR (r : Fin 5) : Word :=
  match r with
  | 0 => 0x50A28BE6#32
  | 1 => 0x5C4DD124#32
  | 2 => 0x6D703EF3#32
  | 3 => 0x7A6D76E9#32
  | 4 => 0x00000000#32

/-- f1 (R110). -/
def f1 (x y z : Word) : Word := x ^^^ y ^^^ z
/-- f2 (R110). -/
def f2 (x y z : Word) : Word := (x &&& y) ||| (~~~x &&& z)
/-- f3 (R110). -/
def f3 (x y z : Word) : Word := (x ||| ~~~y) ^^^ z
/-- f4 (R110). -/
def f4 (x y z : Word) : Word := (x &&& z) ||| (y &&& ~~~z)
/-- f5 (R110). -/
def f5 (x y z : Word) : Word := x ^^^ (y ||| ~~~z)

/-- The left line's round functions: f1, f2, f3, f4, f5 for rounds 0..4 (R111). -/
def FL (r : Fin 5) : Word → Word → Word → Word :=
  match r with
  | 0 => f1
  | 1 => f2
  | 2 => f3
  | 3 => f4
  | 4 => f5

/-- The right line's round functions: f5, f4, f3, f2, f1 for rounds 0..4 (R111). -/
def FR (r : Fin 5) : Word → Word → Word → Word :=
  match r with
  | 0 => f5
  | 1 => f4
  | 2 => f3
  | 3 => f2
  | 4 => f1

/-- The initial chaining value `IV[0..4]` (R112). -/
def IV : HashState := ⟨0x67452301#32, 0xEFCDAB89#32, 0x98BADCFE#32, 0x10325476#32, 0xC3D2E1F0#32⟩

end Sys2Proof.Machine
end

