-- ==== Sys2Proof/Machine/Compress.lean ====
section
/-! DEFINITION. The compression function (R130 to R140). It is no command: ABSORB and DIGEST run it. -/

namespace Sys2Proof.Machine

/-- The working register of one line, (A, B, C, D, E) or (AR, BR, CR, DR, ER): hidden state inside one command (R32, R34). -/
structure Line where
  a : Word
  b : Word
  c : Word
  d : Word
  e : Word
  deriving DecidableEq, Repr

/-- A line starts from the chaining value (R132). -/
def Line.start (h : HashState) : Line := ⟨h.h0, h.h1, h.h2, h.h3, h.h4⟩

/-- One step of a line, with round function `f`, message word `xw`, constant `k` and rotation `s` (R133). -/
def lineStep (l : Line) (f : Word → Word → Word → Word) (xw k : Word) (s : Nat) : Line :=
  let t1 := l.a + f l.b l.c l.d + xw + k
  let t := rol32 t1 s + l.e
  ⟨l.e, t, l.b, rol32 l.c 10, l.d⟩

/-- The sixteen message words of a block: `x[j] = le32(block, j)` (R131). -/
def messageWords (block : List Byte) : Vector Word 16 := Vector.ofFn fun j : Fin 16 => le32 block j.val

/-- The left line's step at round `r`, step-in-round `i` (R134). -/
def leftStep (x : Vector Word 16) (r : Fin 5) (i : Fin 16) (l : Line) : Line :=
  lineStep l (FL r) x[PL r i] (KL r) (SL r i)

/-- The right line's step at round `r`, step-in-round `i` (R134). -/
def rightStep (x : Vector Word 16) (r : Fin 5) (i : Fin 16) (l : Line) : Line :=
  lineStep l (FR r) x[PR r i] (KR r) (SR r i)

/-- The 80 positions (round, step) in the order the steps run: rounds 0..4, steps 0..15 within each (R134). -/
def stepOrder : List (Fin 5 × Fin 16) :=
  (List.finRange 5).flatMap fun r => (List.finRange 16).map fun i => (r, i)

/-- Both lines through all 80 steps, left and right in turn (R134, R137). -/
def runLines (x : Vector Word 16) (ls : Line × Line) : Line × Line :=
  stepOrder.foldl (fun (p : Line × Line) ri => (leftStep x ri.1 ri.2 p.1, rightStep x ri.1 ri.2 p.2)) ls

/-- The new chaining value from the input value and the two lines (R136). -/
def combine (h : HashState) (hl hr : Line) : HashState :=
  ⟨h.h1 + hl.c + hr.d, h.h2 + hl.d + hr.e, h.h3 + hl.e + hr.a, h.h4 + hl.a + hr.b, h.h0 + hl.b + hr.c⟩

/-- `compress(h, block)`: the block transform (R137). The block is 64 bytes (R130). -/
def compress (h : HashState) (block : List Byte) : HashState :=
  let p := runLines (messageWords block) (Line.start h, Line.start h)
  combine h p.1 p.2

end Sys2Proof.Machine
end

