-- ==== Sys2Proof/Machine/Stream.lean ====
section
/-! DEFINITION. The streaming block buffer and the padding state machine, as functions of a digest context (R162, R164 to R168, R176). -/

namespace Sys2Proof.Machine

/-- The context INIT constructs: H = IV, CNT = 0, an empty buffer (R161). -/
def Context.fresh : Context := { h := IV, cnt := 0#64, buf := [] }

/-- The byte-absorb primitive: the byte goes to buffer position BLEN, CNT rises by 1 mod 2^64, and a buffer of 64 bytes
is compressed and emptied (R162). -/
def absorbByte (ctx : Context) (b : Byte) : Context :=
  let buf := ctx.buf ++ [b]
  if buf.length = 64 then { h := compress ctx.h buf, cnt := ctx.cnt + 1#64, buf := [] }
  else { h := ctx.h, cnt := ctx.cnt + 1#64, buf := buf }

/-- Bytes absorbed one at a time, in order (R163). -/
def absorbBytes (ctx : Context) (bytes : List Byte) : Context := bytes.foldl absorbByte ctx

/-! ## DOC's batch update (R164) -/

/-- "while buffer length ≥ 64, compress the first 64 bytes and remove them from the buffer"; `fuel` bounds the turns. -/
def drain : Nat → HashState → List Byte → HashState × List Byte
  | 0, h, buf => (h, buf)
  | fuel + 1, h, buf => if 64 ≤ buf.length then drain fuel (compress h (buf.take 64)) (buf.drop 64) else (h, buf)

/-- DOC's `update(data)`: append, count, then drain (R164). `buf.length / 64` turns empty the loop. -/
def docUpdate (ctx : Context) (data : List Byte) : Context :=
  let p := drain ((ctx.buf ++ data).length / 64) ctx.h (ctx.buf ++ data)
  { h := p.1, cnt := ctx.cnt + BitVec.ofNat 64 data.length, buf := p.2 }

/-! ## Padding and finalization (R165 to R167) -/

/-- `z = (56 − len(p)) mod 64`, the number of zero bytes after the mark (R165). -/
def zeroCount (markedLength : Nat) : Nat := ((56 - (markedLength : Int)) % 64).toNat

/-- `pad(buf, cnt)`: the mark 0x80, zero bytes up to 56 mod 64, and the bit length (R165). -/
def pad (buf : List Byte) (cnt : U64) : List Byte :=
  let p := buf ++ [0x80#8]
  p ++ List.replicate (zeroCount p.length) 0x00#8 ++ le64bytes (cnt * 8#64)

/-- The 64-byte blocks of a byte sequence compressed in order, from `h` (R138, R167). -/
def compressBlocks (h : HashState) (bytes : List Byte) : HashState :=
  (List.range (bytes.length / 64)).foldl (fun h m => compress h ((bytes.drop (64 * m)).take 64)) h

/-- `finalize(H, CNT, BUF)`: the padding compressed against the chaining value; the context is only read (R167). -/
def finalize (ctx : Context) : HashState := compressBlocks ctx.h (pad ctx.buf ctx.cnt)

/-! ## The padding state machine (R168): hidden state of DIGEST, phase by phase -/

/-- The private working copy `(h, cnt, wb)` (R168). -/
structure PadWork where
  h : HashState
  cnt : U64
  wb : List Byte
  deriving DecidableEq, Repr

/-- One byte into the working buffer; a buffer of 64 is compressed and emptied (R168, P_MARK and P_ZERO). -/
def padByte (w : PadWork) (b : Byte) : PadWork :=
  let wb := w.wb ++ [b]
  if wb.length = 64 then { w with h := compress w.h wb, wb := [] } else { w with wb := wb }

/-- P_COPY: the private copy of the slot (R168). -/
def padCopy (ctx : Context) : PadWork := { h := ctx.h, cnt := ctx.cnt, wb := ctx.buf }

/-- P_MARK (R168). -/
def padMark (w : PadWork) : PadWork := padByte w 0x80#8

/-- P_ZERO with at most `fuel` turns: while `len(wb) ≠ 56`, a zero byte (R168). -/
def padZeroLoop : Nat → PadWork → PadWork
  | 0, w => w
  | fuel + 1, w => if w.wb.length = 56 then w else padZeroLoop fuel (padByte w 0x00#8)

/-- P_ZERO: at most 63 turns are needed (R165, R168). -/
def padZero (w : PadWork) : PadWork := padZeroLoop 64 w

/-- P_LEN: the length bytes complete the last block, which is compressed (R168). -/
def padLen (w : PadWork) : HashState := compress w.h (w.wb ++ le64bytes (w.cnt * 8#64))

/-- The five words the padding state machine hands to P_OUT (R168). -/
def padMachine (ctx : Context) : HashState := padLen (padZero (padMark (padCopy ctx)))

/-! ## The closed form (R176) -/

/-- The whole padded message P of `rmd160_words` (R176). -/
def paddedMessage (m : List Byte) : List Byte :=
  m ++ [0x80#8] ++ List.replicate (((55 - (m.length : Int)) % 64).toNat) 0x00#8
    ++ le64bytes (BitVec.ofNat 64 (8 * m.length))

/-- `rmd160_words(m)`: RIPEMD-160 of a byte sequence, as five words (R176). -/
def rmd160Words (m : List Byte) : HashState := compressBlocks IV (paddedMessage m)

end Sys2Proof.Machine
end

