-- ==== Sys2Proof/Machine/Ops.lean ====
section
/-! DEFINITION. The named operations on the state: slots, STATUS, DOUT, the error report that stands in this engine for an exception (R200, R203), and the engine reset (R230). -/

namespace Sys2Proof.Machine

/-- NCTX: the number of context slots (R7, R20). -/
def State.nctx (s : State) : Nat := s.slots.length

/-- The context of slot `c`, if `c < NCTX` and `VALID[c] = 1` (R25). -/
def State.context? (s : State) (c : SlotIdx) : Option Context := (s.slots[c.val]?).join

/-- `VALID[c]` (R25). -/
def State.valid (s : State) (c : SlotIdx) : Bool := (s.context? c).isSome

/-- Writes a context into slot `c` and sets `VALID[c]` (R161, R172). No other slot changes (R35). -/
def State.setSlot (s : State) (c : SlotIdx) (ctx : Context) : State :=
  { s with slots := s.slots.set c.val (some ctx) }

/-- `raise Err(code)`: LAST and STICKY are written and nothing else changes (R203). The engine takes no trap: nothing is
saved, control goes nowhere, and there is nothing to return from (R200). -/
def State.raiseErr (s : State) (code : ResultCode) : State := { s with status := s.status.afterError code }

/-- The end of a command whose checks passed: `STATUS.LAST <- OK` (R204, R160 step 4). -/
def State.complete (s : State) : State := { s with status := s.status.afterOk }

/-- A finalized value goes to DOUT[0..4], with DV and DCTX (R169, R206). -/
def State.writeDigest (s : State) (c : SlotIdx) (h : HashState) : State :=
  { s with dout := h, status := s.status.afterDigest c }

/-- The engine reset: every VALID bit and STATUS are cleared; DOUT is left unspecified, so five free words are drawn
for it (R230). NCTX and the tables stay. -/
def State.engineReset (s : State) : State :=
  { s with
    slots := List.replicate s.nctx none
    status := Status.reset
    dout := ⟨Config.freeWord s.draws, Config.freeWord (s.draws + 1), Config.freeWord (s.draws + 2),
             Config.freeWord (s.draws + 3), Config.freeWord (s.draws + 4)⟩
    draws := s.draws + 5 }

/-- A STATUS read: the host gets the 32-bit word, and the engine does not change (R51, R59). -/
def State.readStatus (s : State) : State := { s with readings := s.readings ++ [.status s.status.word] }

/-- A DOUT[w] read: the host gets DOUT[w] when DV = 1, and a fresh free word when DV = 0 (R29, R66, U4). The engine does
not change (R59). -/
def State.readDout (s : State) (w : Fin 5) : State :=
  if s.status.dv then { s with readings := s.readings ++ [.dout w (s.dout.get w)] }
  else { s with readings := s.readings ++ [.dout w (Config.freeWord s.draws)], draws := s.draws + 1 }

end Sys2Proof.Machine
end

