-- ==== Sys2Proof/Machine/Operands.lean ====
section
/-! DEFINITION. The operand forms: a slot to write (INIT, the destination of COPY) and a slot to read (ABSORB, DIGEST, the source of COPY), with the checks of R202 in their order. -/

namespace Sys2Proof.Machine

/-- The range check of a slot index: it names one of the NCTX slots (R72, R73). -/
def State.inRange (s : State) (c : SlotIdx) : Bool := c.val < s.nctx

/-- The context of a slot that a command reads: ERR_CTX when the index is out of range, then ERR_NOCTX when the slot is
not valid (R202, checks 3 and 4). -/
def State.readSlot (s : State) (c : SlotIdx) : Except ResultCode Context :=
  if s.inRange c then
    match s.context? c with
    | some ctx => .ok ctx
    | none => .error .errNoctx
  else .error .errCtx

end Sys2Proof.Machine
end

