-- ==== Sys2Proof/Machine/Commands.lean ====
section
/-! DEFINITION. The meanings of the four commands, checks and body (R160 steps 2 to 4, R161, R163, R169, R172). -/

namespace Sys2Proof.Machine

/-- INIT(c) (R161). -/
def execInit (c : SlotIdx) (s : State) : Host.Outcome State Fault Refusal :=
  if s.inRange c then .next (s.setSlot c Context.fresh).complete
  else .next (s.raiseErr .errCtx)

/-- ABSORB(c, n, lane) (R163). -/
def execAbsorb (c : SlotIdx) (bytes : List Byte) (s : State) : Host.Outcome State Fault Refusal :=
  match s.readSlot c with
  | .error code => .next (s.raiseErr code)
  | .ok ctx => .next (s.setSlot c (absorbBytes ctx bytes)).complete

/-- DIGEST(c): the slot is only read (R169, R171). -/
def execDigest (c : SlotIdx) (s : State) : Host.Outcome State Fault Refusal :=
  match s.readSlot c with
  | .error code => .next (s.raiseErr code)
  | .ok ctx => .next (s.writeDigest c (finalize ctx)).complete

/-- COPY(d, s): both indexes are range-checked before the source's validity; the destination's is not checked (R172). -/
def execCopy (d src : SlotIdx) (s : State) : Host.Outcome State Fault Refusal :=
  if s.inRange d then
    match s.readSlot src with
    | .error code => .next (s.raiseErr code)
    | .ok ctx => .next (s.setSlot d ctx).complete
  else .next (s.raiseErr .errCtx)

end Sys2Proof.Machine
end

