-- ==== Sys2Proof/Machine/Dispatch.lean ====
section
/-! DEFINITION. One arm per constructor of `Instr`: each calls its instruction's meaning. -/

namespace Sys2Proof.Machine

def exec (i : Instr) (s : State) : Host.Outcome State Fault Refusal :=
  match i with
  | .init c => Sys2Proof.Machine.execInit c s
  | .absorb c bytes => Sys2Proof.Machine.execAbsorb c bytes s
  | .digest c => Sys2Proof.Machine.execDigest c s
  | .copy d src => Sys2Proof.Machine.execCopy d src s

end Sys2Proof.Machine
end

