-- ==== Sys2Proof/Machine/Port.lean ====
section
/-! DEFINITION. What the engine does with one interaction of the host: a command word, a read, or the reset event (R51, R66, R160). -/

namespace Sys2Proof.Machine

/-- One command word, as one atomic step: decode, then checks and body (R160, R59). An illegal verdict raises its code. -/
def runWord (cw : U64) (s : State) : Host.Outcome State Fault Refusal :=
  match decode cw with
  | .illegal e => .next (s.raiseErr (illegalCode e))
  | .command i => exec i s

/-- One interaction of the host (R51). -/
def perform (a : HostAction) (s : State) : Host.Outcome State Fault Refusal :=
  match a with
  | .command cw => runWord cw s
  | .readStatus => .next s.readStatus
  | .readDout w => .next (s.readDout w)
  | .reset => .next s.engineReset

/-- The state with `rest` as the interactions still to come. -/
def State.withPending (s : State) (rest : List HostAction) : State := { s with pending := rest }

end Sys2Proof.Machine
end

