-- ==== Sys2Proof/Machine/Step.lean ====
section
/-! DEFINITION. One step of the machine: the engine takes the host's next interaction; with none offered it waits (R61, R232, R237). -/

namespace Sys2Proof.Machine

/-- One step: the oldest pending interaction, or waiting when there is none (R61, R66, R232). -/
def step (s : State) : Host.Outcome State Fault Refusal :=
  match s.pending with
  | [] => .next s
  | a :: rest => perform a (s.withPending rest)

/-- `s` with the host offering the given word next (its bits above `nbits` zero): the engine fetches nothing, the host
supplies commands one by one (R36), so the word goes to the head of `pending` (notes/assumptions/4.md). -/
def State.withFetchWord (s : State) (nbits w : Nat) : State :=
  s.withPending (.command (BitVec.ofNat 64 (w % 2 ^ nbits)) :: s.pending)

end Sys2Proof.Machine
end

