-- ==== Sys2Proof/Machine/HostText.lean ====
section
/-! DEFINITION. The host-side conventions for text and hex (R190, R191), kept by the spec for its known answers. -/

namespace Sys2Proof.Machine

/-- The host's two errors (R208): neither reaches the engine. -/
inductive HostError where
  /-- EncodingError: a character outside 0..255 (R190). -/
  | encoding
  /-- InvalidInputType: an argument that is no string (R193). -/
  | invalidInputType
  deriving DecidableEq, Repr

/-- A character stands for the byte of its code value, which must be in 0..255 (R190). -/
def charByte (ch : Char) : Except HostError Byte :=
  if ch.toNat ≤ 255 then .ok (BitVec.ofNat 8 ch.toNat) else .error .encoding

/-- Text to bytes: character by character, rejected when any is outside 0..255 (R190). -/
def textToBytes : List Char → Except HostError (List Byte)
  | [] => .ok []
  | ch :: rest =>
    match charByte ch with
    | .error e => .error e
    | .ok b =>
      match textToBytes rest with
      | .error e => .error e
      | .ok bs => .ok (b :: bs)

/-- One lowercase hex digit (R191). -/
def hexDigit (v : BitVec 4) : Char :=
  if v.toNat < 10 then Char.ofNat (48 + v.toNat) else Char.ofNat (87 + v.toNat)

/-- The two hex digits of a byte, high nibble first (R191). -/
def hexByte (b : Byte) : List Char := [hexDigit (b.extractLsb' 4 4), hexDigit (b.extractLsb' 0 4)]

/-- The hex encoding of a byte sequence, in order (R191). -/
def hexBytes (bytes : List Byte) : List Char := bytes.flatMap hexByte

/-- `hexdigest`: the 20 digest bytes as 40 characters (R191, R170). -/
def hexdigest (h : HashState) : List Char := hexBytes (digestBytes h)

end Sys2Proof.Machine
end

