-- ==== Sys2Proof/Machine/Pseudo.lean ====
section
/-! DEFINITION. The pseudo-commands UPDATE, NEW and ONESHOT, which expand to commands (R85 to R87), and the assembly line they stand in (R83). -/

namespace Sys2Proof.Machine

/-- The byte strings of UPDATE's commands: command j carries `s[4j .. min(4j+4, len(s)))`, ceil(len(s)/4) of them (R85). -/
def updateChunks (s : List Byte) : List (List Byte) :=
  (List.range ((s.length + 3) / 4)).map fun j => (s.drop (4 * j)).take 4

/-- UPDATE c, s (R85). -/
def expandUpdate (c : SlotIdx) (s : List Byte) : List Instr := (updateChunks s).map (.absorb c)

/-- NEW c [, s] (R86). -/
def expandNew (c : SlotIdx) (s : Option (List Byte)) : List Instr :=
  match s with
  | none => [.init c]
  | some bytes => .init c :: expandUpdate c bytes

/-- ONESHOT c, s (R87). -/
def expandOneshot (c : SlotIdx) (s : List Byte) : List Instr := expandNew c (some s) ++ [.digest c]

/-- One assembly line: a command, a pseudo-command, or a raw word (R83, R85 to R87). -/
inductive AsmLine where
  | command (i : Instr)
  | update (c : SlotIdx) (s : List Byte)
  | new (c : SlotIdx) (s : Option (List Byte))
  | oneshot (c : SlotIdx) (s : List Byte)
  | word (cw : U64)
  deriving DecidableEq, Repr

/-- The command words a line stands for. -/
def AsmLine.words : AsmLine → List U64
  | .command i => [encode i]
  | .update c s => (expandUpdate c s).map encode
  | .new c s => (expandNew c s).map encode
  | .oneshot c s => (expandOneshot c s).map encode
  | .word cw => [cw]

end Sys2Proof.Machine
end

