-- ==== Sys2Proof/Machine/Asm.lean ====
section
/-! DEFINITION. The assembler: from the characters of one line to command words (R83, R84), and the disassembler (R81). Tool-only: the engine never sees text (D32). -/

namespace Sys2Proof.Machine

/-- Why the assembler rejects a line; no command word is then produced (R84). -/
inductive AsmError where
  /-- The line is not of R83's form. -/
  | malformed
  /-- A slot operand is not in 0..15 (R83). -/
  | slotRange
  /-- A byte operand is outside 0..255: DOC's EncodingError (R84). -/
  | encoding
  /-- ABSORB is given no byte or more than four (R83). -/
  | laneCount
  deriving DecidableEq, Repr

/-- A token of a line: a run of letters and digits, a character literal, a quoted string, or a comma. -/
inductive Token where
  | atom (cs : List Char)
  | chr (c : Char)
  | str (cs : List Char)
  | comma
  deriving DecidableEq, Repr

/-- Where the reading of a line stands; collected characters are held last first. -/
inductive LexMode where
  | start
  | atom (acc : List Char)
  | str (acc : List Char)
  | chr
  | chrEnd (c : Char)
  | comment
  deriving DecidableEq, Repr

/-- The double quote and the apostrophe. -/
def doubleQuote : Char := Char.ofNat 34
def apostrophe : Char := Char.ofNat 39

/-- The value of a decimal digit. -/
def decDigit? (c : Char) : Option Nat := if '0' ≤ c ∧ c ≤ '9' then some (c.toNat - 48) else none

/-- The value of a hex digit, in either case of letter. -/
def hexDigit? (c : Char) : Option Nat :=
  if '0' ≤ c ∧ c ≤ '9' then some (c.toNat - 48)
  else if 'a' ≤ c ∧ c ≤ 'f' then some (c.toNat - 87)
  else if 'A' ≤ c ∧ c ≤ 'F' then some (c.toNat - 55)
  else none

/-- Letters and digits. -/
def isAtomChar (c : Char) : Bool :=
  ('0' ≤ c && c ≤ '9') || ('a' ≤ c && c ≤ 'z') || ('A' ≤ c && c ≤ 'Z')

/-- One character read between tokens. `;` starts a comment (R83). -/
def lexStart (ch : Char) : Except AsmError (List Token × LexMode) :=
  if ch = ' ' ∨ ch = Char.ofNat 9 then .ok ([], .start)
  else if ch = ',' then .ok ([.comma], .start)
  else if ch = ';' then .ok ([], .comment)
  else if ch = doubleQuote then .ok ([], .str [])
  else if ch = apostrophe then .ok ([], .chr)
  else if isAtomChar ch then .ok ([], .atom [ch])
  else .error .malformed

/-- One character read in any mode: the tokens it completes, and the mode after it. -/
def lexChar (mode : LexMode) (ch : Char) : Except AsmError (List Token × LexMode) :=
  match mode with
  | .start => lexStart ch
  | .atom acc =>
    if isAtomChar ch then .ok ([], .atom (ch :: acc))
    else
      match lexStart ch with
      | .error e => .error e
      | .ok (toks, next) => .ok (.atom acc.reverse :: toks, next)
  | .str acc => if ch = doubleQuote then .ok ([.str acc.reverse], .start) else .ok ([], .str (ch :: acc))
  | .chr => .ok ([], .chrEnd ch)
  | .chrEnd c => if ch = apostrophe then .ok ([.chr c], .start) else .error .malformed
  | .comment => .ok ([], .comment)

/-- The tokens that the end of the line completes. -/
def lexEnd : LexMode → Except AsmError (List Token)
  | .start => .ok []
  | .atom acc => .ok [.atom acc.reverse]
  | .str _ => .error .malformed
  | .chr => .error .malformed
  | .chrEnd _ => .error .malformed
  | .comment => .ok []

/-- The tokens of a line. -/
def lex : LexMode → List Char → Except AsmError (List Token)
  | mode, [] => lexEnd mode
  | mode, ch :: rest =>
    match lexChar mode ch with
    | .error e => .error e
    | .ok (toks, next) =>
      match lex next rest with
      | .error e => .error e
      | .ok more => .ok (toks ++ more)

/-- A number from its digits in base `b`, most significant first; `none` for no digits or a wrong one. -/
def number? (b : Nat) (digit? : Char → Option Nat) (cs : List Char) : Option Nat :=
  if cs.isEmpty then none
  else cs.foldl (fun acc c => acc.bind fun n => (digit? c).map fun d => n * b + d) (some 0)

/-- `0x` and exactly `digits` hex digits (R83, R84). -/
def hexOperand? (digits : Nat) (cs : List Char) : Option Nat :=
  match cs with
  | '0' :: 'x' :: ds => if ds.length = digits then number? 16 hexDigit? ds else none
  | _ => none

/-- A slot operand: decimal 0..15 (R83). -/
def slotOperand (t : Token) : Except AsmError SlotIdx :=
  match t with
  | .atom cs =>
    match number? 10 decDigit? cs with
    | none => .error .malformed
    | some n => if h : n < 16 then .ok ⟨n, h⟩ else .error .slotRange
  | .chr _ => .error .malformed
  | .str _ => .error .malformed
  | .comma => .error .malformed

/-- A character as a byte operand, under the host text convention (R84, R190). -/
def charOperand (c : Char) : Except AsmError Byte :=
  match charByte c with
  | .ok b => .ok b
  | .error _ => .error .encoding

/-- A byte operand: `0xNN`, decimal 0..255, or a character literal (R84). -/
def byteOperand (t : Token) : Except AsmError Byte :=
  match t with
  | .atom cs =>
    match hexOperand? 2 cs with
    | some n => .ok (BitVec.ofNat 8 n)
    | none =>
      match number? 10 decDigit? cs with
      | some n => if n ≤ 255 then .ok (BitVec.ofNat 8 n) else .error .encoding
      | none => .error .malformed
  | .chr c => charOperand c
  | .str _ => .error .malformed
  | .comma => .error .malformed

/-- A list in which each element has been read without error. -/
def readEach (f : α → Except AsmError β) : List α → Except AsmError (List β)
  | [] => .ok []
  | a :: rest =>
    match f a with
    | .error e => .error e
    | .ok b =>
      match readEach f rest with
      | .error e => .error e
      | .ok bs => .ok (b :: bs)

/-- A byte string: one quoted string, or byte operands (R83, R84). -/
def byteString (ops : List Token) : Except AsmError (List Byte) :=
  match ops with
  | [.str cs] => readEach charOperand cs
  | _ => readEach byteOperand ops

/-- The operands between the commas. -/
def splitOperands : List Token → Except AsmError (List Token)
  | [] => .ok []
  | [t] => if t = .comma then .error .malformed else .ok [t]
  | t :: sep :: rest =>
    if t = .comma ∨ sep ≠ .comma ∨ rest.isEmpty then .error .malformed
    else
      match splitOperands rest with
      | .error e => .error e
      | .ok ops => .ok (t :: ops)

/-- A slot and a byte string (ABSORB, UPDATE, NEW, ONESHOT). -/
def slotAndBytes (ops : List Token) : Except AsmError (SlotIdx × List Byte) :=
  match ops with
  | [] => .error .malformed
  | [_] => .error .malformed
  | t :: rest =>
    match slotOperand t, byteString rest with
    | .ok c, .ok bytes => .ok (c, bytes)
    | .error e, _ => .error e
    | .ok _, .error e => .error e

/-- A line with one slot operand (INIT, DIGEST). -/
def slotLine (f : SlotIdx → AsmLine) (ops : List Token) : Except AsmError AsmLine :=
  match ops with
  | [t] => (slotOperand t).map f
  | _ => .error .malformed

/-- COPY's two slot operands, destination first (R83). -/
def copyLine (ops : List Token) : Except AsmError AsmLine :=
  match ops with
  | [td, ts] =>
    match slotOperand td, slotOperand ts with
    | .ok d, .ok s => .ok (.command (.copy d s))
    | .error e, _ => .error e
    | .ok _, .error e => .error e
  | _ => .error .malformed

/-- ABSORB's operands: 1 to 4 bytes (R83). -/
def absorbLine (ops : List Token) : Except AsmError AsmLine :=
  match slotAndBytes ops with
  | .error e => .error e
  | .ok (c, bytes) =>
    if (Instr.absorb c bytes).wf then .ok (.command (.absorb c bytes)) else .error .laneCount

/-- NEW's operands: a slot, and a byte string or none (R86). -/
def newLine (ops : List Token) : Except AsmError AsmLine :=
  match ops with
  | [t] => (slotOperand t).map fun c => .new c none
  | _ => (slotAndBytes ops).map fun p => .new p.1 (some p.2)

/-- WORD's operand: `0x` and sixteen hex digits (R83). -/
def wordLine (ops : List Token) : Except AsmError AsmLine :=
  match ops with
  | [.atom cs] =>
    match hexOperand? 16 cs with
    | some n => .ok (.word (BitVec.ofNat 64 n))
    | none => .error .malformed
  | _ => .error .malformed

/-- A line from its mnemonic and its operands (R83, R85 to R87). -/
def lineOf (name : List Char) (ops : List Token) : Except AsmError AsmLine :=
  if name = ['I', 'N', 'I', 'T'] then slotLine (fun c => .command (.init c)) ops
  else if name = ['A', 'B', 'S', 'O', 'R', 'B'] then absorbLine ops
  else if name = ['D', 'I', 'G', 'E', 'S', 'T'] then slotLine (fun c => .command (.digest c)) ops
  else if name = ['C', 'O', 'P', 'Y'] then copyLine ops
  else if name = ['W', 'O', 'R', 'D'] then wordLine ops
  else if name = ['U', 'P', 'D', 'A', 'T', 'E'] then (slotAndBytes ops).map fun p => .update p.1 p.2
  else if name = ['N', 'E', 'W'] then newLine ops
  else if name = ['O', 'N', 'E', 'S', 'H', 'O', 'T'] then (slotAndBytes ops).map fun p => .oneshot p.1 p.2
  else .error .malformed

/-- A line from its tokens; a blank line or one with only a comment is no command. -/
def parseTokens (toks : List Token) : Except AsmError (Option AsmLine) :=
  match toks with
  | [] => .ok none
  | .atom name :: rest =>
    match splitOperands rest with
    | .error e => .error e
    | .ok ops => (lineOf name ops).map some
  | _ => .error .malformed

/-- The command words of one line of assembly text (R83). -/
def assembleLine (text : List Char) : Except AsmError (List U64) :=
  match lex .start text with
  | .error e => .error e
  | .ok toks =>
    match parseTokens toks with
    | .error e => .error e
    | .ok none => .ok []
    | .ok (some line) => .ok line.words

/-- The command words of a program, one line after another; one rejected line rejects the program. -/
def assemble (lines : List (List Char)) : Except AsmError (List U64) :=
  (readEach assembleLine lines).map List.flatten

/-! ## The disassembler (R81) -/

/-- A slot index in decimal. -/
def slotText (c : SlotIdx) : List Char :=
  if c.val < 10 then [Char.ofNat (48 + c.val)] else ['1', Char.ofNat (38 + c.val)]

/-- A command in R83's syntax, its bytes as `0xNN`. -/
def commandText : Instr → List Char
  | .init c => ['I', 'N', 'I', 'T', ' '] ++ slotText c
  | .absorb c bytes =>
    ['A', 'B', 'S', 'O', 'R', 'B', ' '] ++ slotText c ++ bytes.flatMap fun b => [',', ' ', '0', 'x'] ++ hexByte b
  | .digest c => ['D', 'I', 'G', 'E', 'S', 'T', ' '] ++ slotText c
  | .copy d s => ['C', 'O', 'P', 'Y', ' '] ++ slotText d ++ [',', ' '] ++ slotText s

/-- A raw word in R83's syntax: `WORD 0x` and sixteen hex digits, most significant first. -/
def wordText (cw : U64) : List Char :=
  ['W', 'O', 'R', 'D', ' ', '0', 'x'] ++ hexBytes (le64bytes cw).reverse

/-- The disassembly of a word: a command in canonical form, ignored bits not shown (R81); an illegal word as WORD (R83). -/
def disassemble (cw : U64) : List Char :=
  match decode cw with
  | .command i => commandText i
  | .illegal _ => wordText cw

end Sys2Proof.Machine
end

