-- ==== Sys2Proof/Machine/Run.lean ====
section
/-! DEFINITION. Runs: several steps one after another, and the end of a run (R241). -/

namespace Sys2Proof.Machine

/-- `k` steps, stopping at the first fault or refusal. -/
def run : Nat → State → Host.Outcome State Fault Refusal
  | 0, s => .next s
  | k + 1, s =>
    match step s with
    | .next t => run k t
    | .fault r => .fault r
    | .refused r => .refused r

/-- A whole run: as many steps as the host has interactions left; it ends when the last has completed (R241). -/
def runAll (s : State) : Host.Outcome State Fault Refusal := run s.pending.length s

end Sys2Proof.Machine
end

