-- ==== Sys2Proof/Machine/HostApp.lean ====
section
/-! DEFINITION. What a host does with the engine to get DOC's one-shot functions (R192, R193): it issues ONESHOT and reads DOUT[0..4]. -/

namespace Sys2Proof.Machine

/-- The commands as the host issues them on the port. -/
def issue (is : List Instr) : List HostAction := is.map fun i => .command (encode i)

/-- The five DOUT reads, in word order (R87, R238). -/
def readDigest : List HostAction := (List.finRange 5).map .readDout

/-- ONESHOT c, bytes, then the five DOUT reads (R192). -/
def oneshotActions (c : SlotIdx) (bytes : List Byte) : List HostAction :=
  issue (expandOneshot c bytes) ++ readDigest

/-- The words the DOUT reads among `rs` returned, in order. -/
def doutWords : List Reading → List Word
  | [] => []
  | .status _ :: rest => doutWords rest
  | .dout _ v :: rest => v :: doutWords rest

/-- The one-shot `digest(bytes)` of a host that has an engine just after reset and uses its slot 0 (R192). -/
def hostDigest (bytes : List Byte) : List Byte :=
  match runAll (State.reset.withPending (oneshotActions 0 bytes)) with
  | .next t => (doutWords t.readings).flatMap le32bytes
  | .fault _ => []
  | .refused _ => []

/-- A host-language value as far as `hash` tells values apart (R193). -/
inductive HostValue where
  | string (text : List Char)
  | other
  deriving DecidableEq, Repr

/-- The legacy `hash(string)`: anything but a string is rejected, a string is hashed to its hex digest (R193). -/
def hashString (v : HostValue) : Except HostError (List Char) :=
  match v with
  | .other => .error .invalidInputType
  | .string text =>
    match textToBytes text with
    | .error e => .error e
    | .ok bytes => .ok (hexBytes (hostDigest bytes))

end Sys2Proof.Machine
end

