-- ==== Sys2Proof/Safety.lean ====
section
/-! DEFINITION. The terms in which claims are made: the invariant of a reachable state, success of a command, what a command reads and writes, and DOC's own machine of contexts, which the engine refines. -/

namespace Sys2Proof.Machine

/-! ## The invariant -/

/-- DOC's invariants of a context, as the engine keeps them between commands: fewer than 64 bytes are pending, and their
number is CNT mod 64 (R24, R26, R27). -/
def Context.Inv (ctx : Context) : Prop := ctx.buf.length < 64 ∧ ctx.buf.length = ctx.cnt.toNat % 64

/-- The invariant of the machine: 1 ≤ NCTX ≤ 16 (R7), every valid slot keeps its context's invariant (R26, R27), a
recorded failure is sticky (R205), and DCTX names a slot, 0 while no DIGEST has succeeded (R206). -/
structure State.Inv (s : State) : Prop where
  one_le_nctx : 1 ≤ s.nctx
  nctx_le : s.nctx ≤ 16
  contexts : ∀ c ctx, s.context? c = some ctx → ctx.Inv
  sticky_of_last : s.status.last ≠ .ok → s.status.sticky = true
  dctx_in_range : s.inRange s.status.dctx = true
  dctx_of_dv : s.status.dv = false → s.status.dctx = 0

/-! ## Success and effect of a command -/

/-- The result code a word gets in state `s`: the first check that fails, in the order of R202, else OK. -/
def expectedCode (cw : U64) (s : State) : ResultCode :=
  if opcField cw ∉ [0x01#8, 0x02#8, 0x03#8, 0x04#8] then .errOpcode
  else if rsvField cw ≠ 0#14 then .errReserved
  else if s.nctx ≤ (ctxField cw).val then .errCtx
  else if opcField cw = 0x04#8 ∧ s.nctx ≤ (srcField cw).val then .errCtx
  else if (opcField cw = 0x02#8 ∨ opcField cw = 0x03#8) ∧ s.valid (ctxField cw) = false then .errNoctx
  else if opcField cw = 0x04#8 ∧ s.valid (srcField cw) = false then .errNoctx
  else .ok

/-- The slots a command writes (R35). -/
def slotsWritten : Instr → List SlotIdx
  | .init c => [c]
  | .absorb c _ => [c]
  | .digest _ => []
  | .copy d _ => [d]

/-- The slots a command reads or writes (R35). -/
def slotsTouched : Instr → List SlotIdx
  | .init c => [c]
  | .absorb c _ => [c]
  | .digest c => [c]
  | .copy d s => [d, s]

/-- The interaction may write slot `c`: a command of the kind, whether or not it succeeds, or the reset event. -/
def HostAction.writesSlot (c : SlotIdx) : HostAction → Bool
  | .command cw =>
    match decode cw with
    | .command i => (slotsWritten i).contains c
    | .illegal _ => false
  | .readStatus => false
  | .readDout _ => false
  | .reset => true

/-- The interaction gives slot `c` a context that does not continue the one it held: INIT c, a COPY into it, or reset. -/
def HostAction.replacesSlot (c : SlotIdx) : HostAction → Bool
  | .command cw =>
    match decode cw with
    | .command (.init c') => c' = c
    | .command (.copy d _) => d = c
    | .command (.absorb _ _) => false
    | .command (.digest _) => false
    | .illegal _ => false
  | .readStatus => false
  | .readDout _ => false
  | .reset => true

/-- The bytes the ABSORBs on slot `c` among the interactions carry, in order (R175). -/
def bytesFor (c : SlotIdx) : List HostAction → List Byte
  | [] => []
  | .command cw :: rest =>
    match decode cw with
    | .command (.absorb c' bytes) => if c' = c then bytes ++ bytesFor c rest else bytesFor c rest
    | .command (.init _) => bytesFor c rest
    | .command (.digest _) => bytesFor c rest
    | .command (.copy _ _) => bytesFor c rest
    | .illegal _ => bytesFor c rest
  | .readStatus :: rest => bytesFor c rest
  | .readDout _ :: rest => bytesFor c rest
  | .reset :: rest => bytesFor c rest

/-! ## The two lines in any order (R135) -/

/-- The steps of both lines taken in the order a schedule says, `true` for the left line's next step and `false` for
the right's; it ends with the schedule, or where a line has no step left. -/
def runInterleaved (x : Vector Word 16) :
    List Bool → List (Fin 5 × Fin 16) → List (Fin 5 × Fin 16) → Line × Line → Line × Line
  | true :: sched, ri :: ls, rs, p => runInterleaved x sched ls rs (leftStep x ri.1 ri.2 p.1, p.2)
  | false :: sched, ls, ri :: rs, p => runInterleaved x sched ls rs (p.1, rightStep x ri.1 ri.2 p.2)
  | true :: _, [], _, p => p
  | false :: _, _, [], p => p
  | [], _, _, p => p

/-! ## DOC's machine: contexts known only by the message each has been fed (R14, R164, R173 to R176) -/

/-- One place per slot: the message its context has been fed since it was constructed, `none` for no context. -/
abbrev Messages := List (Option (List Byte))

/-- DOC's operations on messages: `new`, `update`, `digest` (which changes no context) and `copy`. -/
def docCommand (i : Instr) (m : Messages) : Messages :=
  match i with
  | .init c => m.set c.val (some [])
  | .absorb c bytes =>
    match m[c.val]? with
    | some (some x) => m.set c.val (some (x ++ bytes))
    | some none => m
    | none => m
  | .digest _ => m
  | .copy d s =>
    match m[s.val]? with
    | some (some x) => m.set d.val (some x)
    | some none => m
    | none => m

/-- One interaction of the host, on messages. -/
def docStep (a : HostAction) (m : Messages) : Messages :=
  match a with
  | .command cw =>
    match decode cw with
    | .command i => docCommand i m
    | .illegal _ => m
  | .readStatus => m
  | .readDout _ => m
  | .reset => List.replicate m.length none

/-- The engine's slots hold exactly the contexts of these messages. -/
def Represents (s : State) (m : Messages) : Prop :=
  s.slots = m.map (Option.map (absorbBytes Context.fresh))

end Sys2Proof.Machine
end

