-- ==== Sys2Proof/Certificates/Slice0/Obligations.lean ====
section
/-! DEFINITION. The statements put to the provers. Each docstring names the rules of spec/ it formalises; what it says of an instruction it says of every form, for every NCTX and every host queue. -/

open Sys2Proof Sys2Proof.Machine

/-! ## Encoding -/

/-- The examples of R88 (the spec marks them as derived from R70 and R78): the assembly, the words, and what they decode
to. The text is read as notes/assumptions/8.md says. -/
def Obligations.EncodingExamplesAgree : Prop :=
  assembleLine "INIT 0".toList = .ok [0x0000000000000001#64]
  ∧ assembleLine "INIT 1".toList = .ok [0x0000000000000101#64]
  ∧ assembleLine "ABSORB 0, 'a'".toList = .ok [0x0000006100000002#64]
  ∧ assembleLine "ABSORB 0, \"abc\"".toList = .ok [0x0063626100020002#64]
  ∧ assembleLine "ABSORB 0, \"The \"".toList = .ok [0x2065685400030002#64]
  ∧ assembleLine "ABSORB 1, 0x80, 0x00".toList = .ok [0x0000008000010102#64]
  ∧ assembleLine "DIGEST 0".toList = .ok [0x0000000000000003#64]
  ∧ assembleLine "DIGEST 1".toList = .ok [0x0000000000000103#64]
  ∧ assembleLine "COPY 1, 0".toList = .ok [0x0000000000000104#64]
  ∧ assembleLine "COPY 0, 1".toList = .ok [0x0000000000001004#64]
  ∧ assembleLine "WORD 0x0000000000000000".toList = .ok [0x0000000000000000#64]
  ∧ assembleLine "WORD 0x0000000000040001".toList = .ok [0x0000000000040001#64]
  ∧ decode 0x0000000000000001#64 = .command (.init 0)
  ∧ decode 0x0000000000000101#64 = .command (.init 1)
  ∧ decode 0x0000006100000002#64 = .command (.absorb 0 [0x61#8])
  ∧ decode 0x0063626100020002#64 = .command (.absorb 0 [0x61#8, 0x62#8, 0x63#8])
  ∧ decode 0x2065685400030002#64 = .command (.absorb 0 [0x54#8, 0x68#8, 0x65#8, 0x20#8])
  ∧ decode 0x0000008000010102#64 = .command (.absorb 1 [0x80#8, 0x00#8])
  ∧ decode 0x0000000000000003#64 = .command (.digest 0)
  ∧ decode 0x0000000000000103#64 = .command (.digest 1)
  ∧ decode 0x0000000000000104#64 = .command (.copy 1 0)
  ∧ decode 0x0000000000001004#64 = .command (.copy 0 1)
  ∧ decode 0x0000000000000000#64 = .illegal .opcode
  ∧ decode 0x0000000000040001#64 = .illegal .reserved

/-- Every command a word can carry is read back whole from its canonical word (R70, R77, R78). -/
def Obligations.DecodeOfEncodeIsIdentity : Prop :=
  ∀ i : Instr, i.wf = true → decode (encode i) = .command i

/-- R81: only the bits a command reads matter; its canonical word has the others zero, and is what a disassembler shows. -/
def Obligations.IgnoredBitsDoNotMatter : Prop :=
  ∀ (w1 w2 : U64) (i : Instr), decode w1 = .command i →
    (w2 &&& careMask i = w1 &&& careMask i →
      decode w2 = .command i ∧ (∀ s, runWord w2 s = runWord w1 s) ∧ disassemble w2 = commandText i)
    ∧ encode i = w1 &&& careMask i

/-- R77, R82: whatever the decoder accepts is well formed, and each word gets exactly one verdict of R77's order. -/
def Obligations.DecodedCommandsAreWellFormed : Prop :=
  ∀ cw : U64,
    (∀ i, decode cw = .command i → i.wf = true)
    ∧ ((∃ i, decode cw = .command i) ↔
        opcField cw ∈ [0x01#8, 0x02#8, 0x03#8, 0x04#8] ∧ rsvField cw = 0#14)

/-- R78: a command matches a row of the opcode map when `(cw and MASK) = MATCH`, and only then. -/
def Obligations.OpcodeMapSelectsCommands : Prop :=
  ∀ row ∈ opcodeRows, ∀ cw : U64,
    cw &&& row.mask = row.pattern ↔ ∃ i, decode cw = .command i ∧ i.mnemonic = row.mnemonic

/-- R79: the 252 illegal opcodes, the all-zero word among them, fail with ERR_OPCODE and change nothing but STATUS. -/
def Obligations.IllegalOpcodesFail : Prop :=
  (∀ cw : U64, decode cw = .illegal .opcode ↔
    opcField cw = 0x00#8 ∨ (0x05#8).toNat ≤ (opcField cw).toNat)
  ∧ ((List.range 256).filter fun v => decode (BitVec.ofNat 64 v) = .illegal .opcode).length = 252
  ∧ decode 0#64 = .illegal .opcode
  ∧ ResultCode.errOpcode.number = 1#4
  ∧ ∀ (cw : U64) (s : State), decode cw = .illegal .opcode →
      runWord cw s = .next { s with status := { s.status with last := .errOpcode, sticky := true } }

/-- R80: with a legal opcode and any reserved bit set, the command fails with ERR_RESERVED and changes only STATUS. -/
def Obligations.ReservedBitsFail : Prop :=
  ResultCode.errReserved.number = 2#4
  ∧ ∀ (cw : U64) (s : State), opcField cw ∈ [0x01#8, 0x02#8, 0x03#8, 0x04#8] → rsvField cw ≠ 0#14 →
      decode cw = .illegal .reserved
      ∧ runWord cw s = .next { s with status := { s.status with last := .errReserved, sticky := true } }

/-! ## Tables and round functions -/

/-- R100, and R101, R102, R103 (the spec marks their values as derived): ρ, a bijection, and π by their values; the recurrences of both lines' permutations, and
their rows. -/
def Obligations.PermutationTables : Prop :=
  (List.finRange 16).map rho = [7, 4, 13, 1, 10, 6, 15, 3, 12, 0, 9, 5, 2, 14, 11, 8]
  ∧ Function.Bijective rho
  ∧ (∀ i : Fin 16, (piPerm i).val = (9 * i.val + 5) % 16)
  ∧ (List.finRange 16).map piPerm = [5, 14, 7, 0, 9, 2, 11, 4, 13, 6, 15, 8, 1, 10, 3, 12]
  ∧ (∀ i, PL 0 i = i) ∧ (∀ i, PR 0 i = piPerm i)
  ∧ (∀ (r : Fin 4) (i : Fin 16), PL r.succ i = rho (PL r.castSucc i) ∧ PR r.succ i = rho (PR r.castSucc i))
  ∧ (List.finRange 5).map (fun r => (List.finRange 16).map (PL r)) =
    [[0, 1, 2, 3, 4, 5, 6, 7, 8, 9, 10, 11, 12, 13, 14, 15],
     [7, 4, 13, 1, 10, 6, 15, 3, 12, 0, 9, 5, 2, 14, 11, 8],
     [3, 10, 14, 4, 9, 15, 8, 1, 2, 7, 0, 6, 13, 11, 5, 12],
     [1, 9, 11, 10, 0, 8, 12, 4, 13, 3, 7, 15, 14, 5, 6, 2],
     [4, 0, 5, 9, 7, 12, 2, 10, 14, 1, 3, 8, 11, 6, 15, 13]]
  ∧ (List.finRange 5).map (fun r => (List.finRange 16).map (PR r)) =
    [[5, 14, 7, 0, 9, 2, 11, 4, 13, 6, 15, 8, 1, 10, 3, 12],
     [6, 11, 3, 7, 0, 13, 5, 10, 14, 15, 8, 12, 4, 9, 1, 2],
     [15, 5, 1, 3, 7, 14, 6, 9, 11, 8, 12, 2, 10, 0, 4, 13],
     [8, 6, 4, 1, 3, 11, 15, 0, 5, 12, 2, 13, 9, 7, 10, 14],
     [12, 15, 10, 4, 1, 5, 8, 7, 6, 2, 13, 14, 0, 3, 9, 11]]

/-- The rows of R106 (the spec marks them as derived), over the base amounts of R105 (the spec marks them as from general
knowledge: notes/assumptions/9.md); every amount lies in 5..15, so a rotation by 0 never occurs. -/
def Obligations.RotationSchedules : Prop :=
  (∀ r i, SL r i = rotBase r (PL r i) ∧ SR r i = rotBase r (PR r i))
  ∧ (List.finRange 5).map (fun r => (List.finRange 16).map (SL r)) =
    [[11, 14, 15, 12, 5, 8, 7, 9, 11, 13, 14, 15, 6, 7, 9, 8],
     [7, 6, 8, 13, 11, 9, 7, 15, 7, 12, 15, 9, 11, 7, 13, 12],
     [11, 13, 6, 7, 14, 9, 13, 15, 14, 8, 13, 6, 5, 12, 7, 5],
     [11, 12, 14, 15, 14, 15, 9, 8, 9, 14, 5, 6, 8, 6, 5, 12],
     [9, 15, 5, 11, 6, 8, 13, 12, 5, 12, 13, 14, 11, 8, 5, 6]]
  ∧ (List.finRange 5).map (fun r => (List.finRange 16).map (SR r)) =
    [[8, 9, 9, 11, 13, 15, 15, 5, 7, 7, 8, 11, 14, 14, 12, 6],
     [9, 13, 15, 7, 12, 8, 9, 11, 7, 7, 12, 7, 6, 15, 13, 11],
     [9, 7, 15, 11, 8, 6, 6, 14, 12, 13, 5, 14, 13, 13, 7, 5],
     [15, 5, 8, 11, 14, 14, 6, 14, 6, 9, 12, 9, 12, 5, 15, 8],
     [8, 5, 12, 9, 12, 5, 14, 6, 8, 13, 6, 5, 15, 13, 11, 11]]
  ∧ (∀ r i, 5 ≤ rotBase r i ∧ rotBase r i ≤ 15)

/-- R107 on the pairs (k, n) of R108, R109 (the spec marks the pairs as from general knowledge: notes/assumptions/9.md):
each constant is the largest `m` with `m^n ≤ k · 2^(30n)`, or the fixed 0; and its value. -/
def Obligations.RoundConstantsAreRoots : Prop :=
  (∀ p ∈ [(KL 1, 2, 2), (KL 2, 3, 2), (KL 3, 5, 2), (KL 4, 7, 2), (KR 0, 2, 3), (KR 1, 3, 3), (KR 2, 5, 3), (KR 3, 7, 3)],
    p.1.toNat ^ p.2.2 ≤ p.2.1 * 2 ^ (30 * p.2.2) ∧ p.2.1 * 2 ^ (30 * p.2.2) < (p.1.toNat + 1) ^ p.2.2)
  ∧ (List.finRange 5).map KL = [0x00000000#32, 0x5A827999#32, 0x6ED9EBA1#32, 0x8F1BBCDC#32, 0xA953FD4E#32]
  ∧ (List.finRange 5).map KR = [0x50A28BE6#32, 0x5C4DD124#32, 0x6D703EF3#32, 0x7A6D76E9#32, 0x00000000#32]

/-- R110, R111: the five functions bit by bit, and which line uses which in which round. -/
def Obligations.RoundFunctionsPerBit : Prop :=
  (∀ (x y z : Word) (i : Nat), i < 32 →
    (f1 x y z).getLsbD i = (x.getLsbD i ^^ y.getLsbD i ^^ z.getLsbD i)
    ∧ (f2 x y z).getLsbD i = (if x.getLsbD i then y.getLsbD i else z.getLsbD i)
    ∧ (f3 x y z).getLsbD i = ((x.getLsbD i || !y.getLsbD i) ^^ z.getLsbD i)
    ∧ (f4 x y z).getLsbD i = (if z.getLsbD i then x.getLsbD i else y.getLsbD i)
    ∧ (f5 x y z).getLsbD i = (x.getLsbD i ^^ (y.getLsbD i || !z.getLsbD i)))
  ∧ (List.finRange 5).map FL = [f1, f2, f3, f4, f5]
  ∧ (List.finRange 5).map FR = [f5, f4, f3, f2, f1]

/-- R10 (the spec marks it as from general knowledge: notes/assumptions/9.md): bit `i` of `rol32(v, s)` is bit `(i - s) mod 32` of `v`, and the engine's amounts are never 0. -/
def Obligations.RotateLeftMovesBits : Prop :=
  (∀ (v : Word) (s i : Nat), s ≤ 31 → i < 32 → (rol32 v s).getLsbD i = v.getLsbD ((i + 32 - s) % 32))
  ∧ (∀ v : Word, rol32 v 0 = v)
  ∧ (∀ r i, 5 ≤ SL r i ∧ SL r i ≤ 15 ∧ 5 ≤ SR r i ∧ SR r i ≤ 15)

/-- R112 (the spec marks it as derived from the quoted string): the initial value is the little-endian decomposition of the 20 bytes, and INIT loads it. -/
def Obligations.InitialValueWords : Prop :=
  (∀ w : Fin 5, IV.get w = le32 [0x01#8, 0x23#8, 0x45#8, 0x67#8, 0x89#8, 0xAB#8, 0xCD#8, 0xEF#8, 0xFE#8, 0xDC#8,
    0xBA#8, 0x98#8, 0x76#8, 0x54#8, 0x32#8, 0x10#8, 0xF0#8, 0xE1#8, 0xD2#8, 0xC3#8] w.val)
  ∧ (List.finRange 5).map IV.get = [0x67452301#32, 0xEFCDAB89#32, 0x98BADCFE#32, 0x10325476#32, 0xC3D2E1F0#32]
  ∧ ∀ (s : State) (c : SlotIdx), c.val < s.nctx →
      ∃ t ctx, exec (.init c) s = .next t ∧ t.context? c = some ctx ∧ ctx.h = IV

/-! ## Compression -/

/-- R133: the step's formula, its rotations being left rotations of 32 bits, and the rule's worked example. -/
def Obligations.StepFormula : Prop :=
  (∀ (l : Line) (f : Word → Word → Word → Word) (xw k : Word) (s : Nat), s ≤ 31 →
    lineStep l f xw k s =
      ⟨l.e, (l.a + f l.b l.c l.d + xw + k).rotateLeft s + l.e, l.b, l.c.rotateLeft 10, l.d⟩)
  ∧ lineStep (Line.start IV) f1 0x80636261#32 0#32 11 =
      ⟨0xC3D2E1F0#32, 0x3115FC67#32, 0xEFCDAB89#32, 0xEB73FA62#32, 0x10325476#32⟩

/-- R135 (the spec marks it as derived from R133 and R134): any order of left and right steps that keeps each line's own order gives the same two lines. -/
def Obligations.LinesAreIndependent : Prop :=
  ∀ (x : Vector Word 16) (p : Line × Line) (sched : List Bool),
    sched.count true = 80 → sched.count false = 80 →
    runInterleaved x sched stepOrder stepOrder p = runLines x p

/-- R131 and R136, R137 on the spec's vectors: the lines and the result for the "abc" block, and three single blocks. -/
def Obligations.CompressionExamples : Prop :=
  let block := pad [0x61#8, 0x62#8, 0x63#8] 3#64
  let p := runLines (messageWords block) (Line.start IV, Line.start IV)
  (messageWords block)[0] = 0x80636261#32 ∧ (messageWords block)[14] = 0x00000018#32
  ∧ p.1 = ⟨0x641129CA#32, 0xD563BFDC#32, 0x0B2CDC01#32, 0x6E413468#32, 0xFC433DA8#32⟩
  ∧ p.2 = ⟨0x81D4727D#32, 0x5FCCBADE#32, 0xBF627814#32, 0xFC0E2B04#32, 0x739C4C7A#32⟩
  ∧ compress IV block = ⟨0xF708B28E#32, 0x7A985DE0#32, 0x8E4A049B#32, 0x87B0C698#32, 0xFC0B5AF1#32⟩
  ∧ compress ⟨0, 0, 0, 0, 0⟩ (List.replicate 64 0x00#8) =
      ⟨0x6BB9FE69#32, 0x3D09C7C0#32, 0x48ED6A0E#32, 0x7D117C5D#32, 0xADC8E12D#32⟩
  ∧ compress IV (List.replicate 64 0xFF#8) =
      ⟨0xD0F198FF#32, 0x8504C819#32, 0xB3DFC4AD#32, 0xECC33B0A#32, 0x013E641D#32⟩

/-- R138: blocks are compressed one after another, in input order, from the running chaining value. -/
def Obligations.BlocksCompressInOrder : Prop :=
  ∀ (h : HashState) (block rest : List Byte), block.length = 64 →
    compressBlocks h (block ++ rest) = compressBlocks (compress h block) rest ∧ compressBlocks h [] = h

/-! ## Padding and finalization -/

/-- R166 (the spec marks it as derived from R165): padding gives 64 bytes for a buffer of up to 55 and 128 for 56 to 63, with 55 − p or 119 − p zero bytes. -/
def Obligations.PaddingLength : Prop :=
  ∀ (buf : List Byte) (cnt : U64),
    (buf.length ≤ 55 → (pad buf cnt).length = 64 ∧ zeroCount (buf.length + 1) = 55 - buf.length)
    ∧ (56 ≤ buf.length → buf.length ≤ 63 →
        (pad buf cnt).length = 128 ∧ zeroCount (buf.length + 1) = 119 - buf.length)

/-- R165: mark, zero bytes up to 56 mod 64, and the bit length mod 2^64 of a message of `n` bytes, whatever `n`. -/
def Obligations.PaddingBytes : Prop :=
  (∀ (buf : List Byte) (n : Nat), ∃ z, z ≤ 63 ∧ (buf.length + 1 + z) % 64 = 56 ∧
    pad buf (BitVec.ofNat 64 n) =
      buf ++ [0x80#8] ++ List.replicate z 0x00#8 ++ le64bytes (BitVec.ofNat 64 (n * 8 % 2 ^ 64)))
  ∧ pad [0x61#8, 0x62#8, 0x63#8] 3#64 =
      [0x61#8, 0x62#8, 0x63#8, 0x80#8] ++ List.replicate 52 0x00#8 ++ 0x18#8 :: List.replicate 7 0x00#8

/-- R168 (the spec marks it as derived from R165 and R167): the padding state machine, phase by phase, gives what DIGEST writes, and it is `finalize` (R167). -/
def Obligations.PaddingMachineIsFinalize : Prop :=
  ∀ (s : State) (c : SlotIdx) (ctx : Context), ctx.buf.length ≤ 63 →
    let marked := padMark (padCopy ctx)
    padMachine ctx = finalize ctx
    ∧ (padZero marked).wb.length = 56
    ∧ (ctx.buf.length = 63 → marked = ⟨compress ctx.h (ctx.buf ++ [0x80#8]), ctx.cnt, []⟩)
    ∧ (56 ≤ ctx.buf.length → ctx.buf.length ≤ 62 →
        marked = ⟨ctx.h, ctx.cnt, ctx.buf ++ [0x80#8]⟩
        ∧ (padZero marked).h =
            compress ctx.h (ctx.buf ++ [0x80#8] ++ List.replicate (63 - ctx.buf.length) 0x00#8))
    ∧ (ctx.buf.length ≤ 55 → (padZero marked).h = ctx.h)
    ∧ (s.context? c = some ctx →
        exec (.digest c) s = .next
          { s with dout := padMachine ctx,
                   status := { last := .ok, sticky := s.status.sticky, dv := true, dctx := c } })

/-- R176 (the spec marks it as derived): DIGEST of the context that has absorbed the message `m` since INIT is RIPEMD-160 of `m`, whatever its length. -/
def Obligations.FinalizeIsRmd160 : Prop :=
  ∀ m : List Byte,
    finalize (absorbBytes Context.fresh m) = rmd160Words m ∧ (paddedMessage m).length % 64 = 0

/-- The context that a message leaves, in closed form: the whole blocks are in H, the rest in BUF, and the length in
CNT (R22, R23, R24; "total byte counter only increases" below 2^64 bytes, R27). -/
def Obligations.ContextOfMessage : Prop :=
  ∀ m : List Byte,
    let ctx := absorbBytes Context.fresh m
    ctx.h = compressBlocks IV (m.take (64 * (m.length / 64)))
    ∧ ctx.buf = m.drop (64 * (m.length / 64))
    ∧ ctx.cnt.toNat = m.length % 2 ^ 64

/-! ## The commands -/

/-- R161: INIT's effect, its error, and its corner cases. -/
def Obligations.InitRule : Prop :=
  ∀ (s : State) (c : SlotIdx),
    (c.val < s.nctx →
      exec (.init c) s = .next { s with slots := s.slots.set c.val (some ⟨IV, 0#64, []⟩),
                                        status := { s.status with last := .ok } })
    ∧ (s.nctx ≤ c.val →
      exec (.init c) s = .next { s with status := { s.status with last := .errCtx, sticky := true } })
    ∧ (∀ t, exec (.init c) s = .next t → exec (.init c) t = .next t ∧ t.status.last ≠ .errNoctx)
    ∧ (∀ cw, opcField cw = 0x01#8 → rsvField cw ≠ 0#14 →
      runWord cw s = .next { s with status := { s.status with last := .errReserved, sticky := true } })

/-- R163, with the byte-absorb primitive it folds (R162): ABSORB's effect, its errors and its corner cases. One byte goes
to position BLEN and is counted; the 64th is compressed with its block and empties the buffer. One ABSORB compresses at
most one block, the first 64 of the pending and the new bytes; the rest start the next block, and CNT rises by their
number mod 2^64. A DIGEST before it changes nothing of this. -/
def Obligations.AbsorbRule : Prop :=
  (∀ (ctx : Context) (b : Byte),
    (ctx.buf.length = 63 → absorbByte ctx b = ⟨compress ctx.h (ctx.buf ++ [b]), ctx.cnt + 1#64, []⟩)
    ∧ (ctx.buf.length ≠ 63 → absorbByte ctx b = ⟨ctx.h, ctx.cnt + 1#64, ctx.buf ++ [b]⟩))
  ∧ ∀ (s : State) (c : SlotIdx) (bytes : List Byte),
    (∀ ctx, s.context? c = some ctx →
      exec (.absorb c bytes) s = .next { s with slots := s.slots.set c.val (some (bytes.foldl absorbByte ctx)),
                                                status := { s.status with last := .ok } })
    ∧ (s.nctx ≤ c.val →
      exec (.absorb c bytes) s = .next { s with status := { s.status with last := .errCtx, sticky := true } })
    ∧ (c.val < s.nctx → s.valid c = false →
      exec (.absorb c bytes) s = .next { s with status := { s.status with last := .errNoctx, sticky := true } })
    ∧ (∀ cw, opcField cw = 0x02#8 → rsvField cw ≠ 0#14 →
      runWord cw s = .next { s with status := { s.status with last := .errReserved, sticky := true } })
    ∧ (∀ ctx : Context, ctx.Inv → bytes.length ≤ 4 →
      let all := ctx.buf ++ bytes
      (all.length < 64 → bytes.foldl absorbByte ctx = ⟨ctx.h, ctx.cnt + BitVec.ofNat 64 bytes.length, all⟩)
      ∧ (64 ≤ all.length →
        bytes.foldl absorbByte ctx =
          ⟨compress ctx.h (all.take 64), ctx.cnt + BitVec.ofNat 64 bytes.length, all.drop 64⟩
        ∧ (all.drop 64).length ≤ 3))
    ∧ (∀ e t, exec (.digest e) s = .next t → t.context? c = s.context? c)

/-- R169: DIGEST's effect, its errors and its corner cases; the slots are not written, so a repeated DIGEST writes the same
DOUT (R171). -/
def Obligations.DigestRule : Prop :=
  ∀ (s : State) (c : SlotIdx),
    (∀ ctx, s.context? c = some ctx →
      exec (.digest c) s = .next
        { s with dout := compressBlocks ctx.h (pad ctx.buf ctx.cnt),
                 status := { last := .ok, sticky := s.status.sticky, dv := true, dctx := c } })
    ∧ (s.nctx ≤ c.val →
      exec (.digest c) s = .next { s with status := { s.status with last := .errCtx, sticky := true } })
    ∧ (c.val < s.nctx → s.valid c = false →
      exec (.digest c) s = .next { s with status := { s.status with last := .errNoctx, sticky := true } })
    ∧ (∀ cw, opcField cw = 0x03#8 → rsvField cw ≠ 0#14 →
      runWord cw s = .next { s with status := { s.status with last := .errReserved, sticky := true } })
    ∧ (∀ ctx t, s.context? c = some ctx → exec (.digest c) s = .next t → exec (.digest c) t = .next t)
    ∧ (∀ ctx : Context,
      (ctx.buf = [] → pad ctx.buf ctx.cnt = 0x80#8 :: List.replicate 55 0x00#8 ++ le64bytes (ctx.cnt * 8#64))
      ∧ (ctx.buf.length = 55 → pad ctx.buf ctx.cnt = ctx.buf ++ 0x80#8 :: le64bytes (ctx.cnt * 8#64))
      ∧ (56 ≤ ctx.buf.length → ctx.buf.length ≤ 63 → (pad ctx.buf ctx.cnt).length = 2 * 64))

/-- R172: COPY's effect, its errors in their order, and the corner case d = s. -/
def Obligations.CopyRule : Prop :=
  ∀ (s : State) (d src : SlotIdx),
    (∀ ctx, d.val < s.nctx → s.context? src = some ctx →
      exec (.copy d src) s = .next { s with slots := s.slots.set d.val (some ctx),
                                            status := { s.status with last := .ok } })
    ∧ (s.nctx ≤ d.val ∨ s.nctx ≤ src.val →
      exec (.copy d src) s = .next { s with status := { s.status with last := .errCtx, sticky := true } })
    ∧ (d.val < s.nctx → src.val < s.nctx → s.valid src = false →
      exec (.copy d src) s = .next { s with status := { s.status with last := .errNoctx, sticky := true } })
    ∧ (s.valid src = true → exec (.copy src src) s = .next { s with status := { s.status with last := .ok } })
    ∧ (∀ cw, opcField cw = 0x04#8 → rsvField cw ≠ 0#14 →
      runWord cw s = .next { s with status := { s.status with last := .errReserved, sticky := true } })

/-- What each command leaves unchanged when it answers a next state: every slot but the one it writes, NCTX, DOUT, DV and
DCTX but for DIGEST, and always the host's queue, its readings and the draws (R35, R161, R163, R169, R172). -/
def Obligations.CommandFrame : Prop :=
  ∀ (i : Instr) (s t : State), exec i s = .next t →
    (∀ c, c ∉ slotsWritten i → t.context? c = s.context? c)
    ∧ t.nctx = s.nctx
    ∧ ((∀ c, i ≠ .digest c) →
        t.dout = s.dout ∧ t.status.dv = s.status.dv ∧ t.status.dctx = s.status.dctx)
    ∧ (t.status.last = .ok → t.status.sticky = s.status.sticky)
    ∧ t.pending = s.pending ∧ t.readings = s.readings ∧ t.draws = s.draws

/-! ## Errors and STATUS -/

/-- R202: the checks run in a fixed order and the first that fails is the one reported. -/
def Obligations.ChecksRunInOrder : Prop :=
  ∀ (cw : U64) (s : State), ∃ t, runWord cw s = .next t ∧ t.status.last = expectedCode cw s

/-- R203: a failing command writes LAST and STICKY and changes nothing else. -/
def Obligations.FailureChangesOnlyStatus : Prop :=
  ∀ (cw : U64) (s : State), expectedCode cw s ≠ .ok →
    runWord cw s = .next { s with status := { s.status with last := expectedCode cw s, sticky := true } }

/-- R204: a successful command writes LAST 0 and keeps STICKY. -/
def Obligations.SuccessKeepsSticky : Prop :=
  ∀ (cw : U64) (s : State), expectedCode cw s = .ok →
    ∃ t, runWord cw s = .next t ∧ t.status.last = .ok ∧ t.status.last.number = 0#4
      ∧ t.status.sticky = s.status.sticky

/-- R205: STICKY is 1 once a command has failed since reset; no command clears it, and only reset does. -/
def Obligations.StickyRecordsFailure : Prop :=
  (∀ (n : Nat) (s t : State), (∀ a ∈ s.pending.take n, a ≠ .reset) →
    s.status.sticky = false → s.status.last = .ok → run n s = .next t →
    (t.status.sticky = true ↔ ∃ k, k ≤ n ∧ ∃ u, run k s = .next u ∧ u.status.last ≠ .ok))
  ∧ (∀ (s t : State), s.pending.head? ≠ some .reset → step s = .next t →
      s.status.sticky = true → t.status.sticky = true)
  ∧ (∀ (s t : State) rest, s.pending = .reset :: rest → step s = .next t →
      t.status.sticky = false ∧ t.status.last = .ok)

/-- R206: DV, DCTX and DOUT change only by a successful DIGEST (and DV and DCTX by reset, to 0). -/
def Obligations.DigestOutputsChangeOnlyByDigest : Prop :=
  (∀ (cw : U64) (s t : State), runWord cw s = .next t →
    (∀ c ctx, decode cw = .command (.digest c) → s.context? c = some ctx →
      t.dout = finalize ctx ∧ t.status.dv = true ∧ t.status.dctx = c)
    ∧ ((∀ c, decode cw = .command (.digest c) → s.valid c = false) →
      t.dout = s.dout ∧ t.status.dv = s.status.dv ∧ t.status.dctx = s.status.dctx))
  ∧ (∀ (s t : State) rest, s.pending = .reset :: rest → step s = .next t →
      t.status.dv = false ∧ t.status.dctx = 0)

/-- R206, over runs from reset with any queue: while DV = 1, DOUT holds the digest of slot DCTX as it stood at a DIGEST
of it that the run executed. The step behind it, from every state, is `StepKeepsOrWritesTheDigest`. -/
def Obligations.DoutHoldsTheDigestOfDctx : Prop :=
  ∀ (N n : Nat) (acts : List HostAction) (t : State),
    run n ((State.resetWith N).withPending acts) = .next t → t.status.dv = true →
    ∃ k u cw rest ctx, k < n ∧ run k ((State.resetWith N).withPending acts) = .next u
      ∧ u.pending = .command cw :: rest ∧ decode cw = .command (.digest t.status.dctx)
      ∧ u.context? t.status.dctx = some ctx ∧ t.dout = finalize ctx

/-- R28: the fields of the STATUS word, its reserved bits, and the values LAST takes. -/
def Obligations.StatusWordFields : Prop :=
  ∀ st : Status,
    st.word.extractLsb' 0 4 = st.last.number ∧ st.last.number.toNat ≤ 4
    ∧ st.word.getLsbD 4 = st.sticky ∧ st.word.getLsbD 5 = st.dv
    ∧ st.word.extractLsb' 6 2 = 0#2
    ∧ st.word.extractLsb' 8 4 = BitVec.ofNat 4 st.dctx.val
    ∧ st.word.extractLsb' 12 20 = 0#20

/-! ## The host's side: steps, reads, reset -/

/-- A step runs the decoded command: with a word next on the port, the step is `exec` of the command it decodes to, the
word taken off the queue; an illegal word raises its code; with nothing offered the engine waits (R160, R203, R232). The
queue is the model's form of the host (notes/assumptions/4.md, 5.md). -/
def Obligations.StepRunsTheDecodedCommand : Prop :=
  ∀ (s : State) (cw : U64) (rest : List HostAction),
    (s.pending = .command cw :: rest → ∀ i, decode cw = .command i → step s = exec i { s with pending := rest })
    ∧ (s.pending = .command cw :: rest → decode cw = .illegal .opcode →
        step s = .next { s with pending := rest, status := { s.status with last := .errOpcode, sticky := true } })
    ∧ (s.pending = .command cw :: rest → decode cw = .illegal .reserved →
        step s = .next { s with pending := rest, status := { s.status with last := .errReserved, sticky := true } })
    ∧ (s.pending = [] → step s = .next s)

/-- "every accepted command completes" (R240; the model's step needs no fairness, notes/assumptions/5.md): every command
completes, and no step ends in a fault or a refusal. -/
def Obligations.EveryStepCompletes : Prop :=
  (∀ (i : Instr) (s : State), ∃ t, exec i s = .next t)
  ∧ (∀ s : State, ∃ t, step s = .next t)
  ∧ (∀ (n : Nat) (s : State), ∃ t, run n s = .next t ∧ t.pending = s.pending.drop n)

/-- R51, R59: a read returns the register and changes nothing of the engine, and read again with no command between,
STATUS (and DOUT[w] while DV = 1) gives the same. While DV = 0 a DOUT read returns a free word: the model's form of
R29's unconstrained value (notes/assumptions/3.md). -/
def Obligations.HostReads : Prop :=
  ∀ (s : State) (rest : List HostAction) (w : Fin 5),
    (s.pending = .readStatus :: rest →
      step s = .next { s with pending := rest, readings := s.readings ++ [.status s.status.word] })
    ∧ (s.pending = .readDout w :: rest → s.status.dv = true →
      step s = .next { s with pending := rest, readings := s.readings ++ [.dout w (s.dout.get w)] })
    ∧ (s.pending = .readDout w :: rest → s.status.dv = false →
      step s = .next { s with pending := rest, draws := s.draws + 1,
                              readings := s.readings ++ [.dout w (Config.freeWord s.draws)] })
    ∧ (s.pending = .readStatus :: .readDout w :: .readStatus :: rest → ∃ t v x,
      run 3 s = .next t ∧ t.readings = s.readings ++ [.status v, .dout w x, .status v])
    ∧ (s.pending = .readDout w :: .readStatus :: .readDout w :: rest → s.status.dv = true → ∃ t v x,
      run 3 s = .next t ∧ t.readings = s.readings ++ [.dout w v, .status x, .dout w v] ∧ v = s.dout.get w)

/-- R230: the reset event clears every VALID bit and STATUS, at any time between commands; NCTX stays. That the host's
queue loses only the event and that its readings stay is the model's choice (notes/assumptions/4.md, 6.md). -/
def Obligations.EngineResetClears : Prop :=
  (∀ (s : State) (rest : List HostAction), s.pending = .reset :: rest → ∃ t, step s = .next t
    ∧ t.nctx = s.nctx ∧ (∀ c, t.valid c = false) ∧ t.status.word = 0#32
    ∧ t.status.last = .ok ∧ t.status.sticky = false ∧ t.status.dv = false ∧ t.status.dctx = 0
    ∧ t.pending = rest ∧ t.readings = s.readings)
  ∧ ∀ N, (State.resetWith N).nctx = N ∧ (∀ c, (State.resetWith N).valid c = false)
      ∧ (State.resetWith N).status.word = 0#32

/-- R233 (the spec marks it as derived from R230 and R202): after reset, ABSORB and DIGEST on a slot, and COPY from it, fail with ERR_NOCTX until an INIT or a COPY has
targeted that slot, over runs from reset. The step behind it, from every state and with a failing INIT or COPY taken in, is
`EmptySlotStaysEmptyUntilTargeted`. -/
def Obligations.EmptySlotsFailUntilTargeted : Prop :=
  ∀ (N n : Nat) (acts : List HostAction) (t : State) (c : SlotIdx), c.val < N →
    (∀ a ∈ acts.take n, a.replacesSlot c = true → a = .reset) →
    run n ((State.resetWith N).withPending acts) = .next t →
    (∀ bytes, exec (.absorb c bytes) t =
      .next { t with status := { t.status with last := .errNoctx, sticky := true } })
    ∧ exec (.digest c) t = .next { t with status := { t.status with last := .errNoctx, sticky := true } }
    ∧ (∀ d : SlotIdx, d.val < N →
      exec (.copy d c) t = .next { t with status := { t.status with last := .errNoctx, sticky := true } })

/-! ## Invariants -/

/-- Every step keeps the machine's invariant (R7, R26, R27, R205, R206), from every state that meets it. -/
def Obligations.InvariantKeptByStep : Prop :=
  ∀ s t : State, s.Inv → step s = .next t → t.Inv

/-- The state after reset meets the invariant, whatever the number of slots the spec allows; `State.reset` has the model's
own choice of 2 (notes/assumptions/1.md). -/
def Obligations.InvariantAtReset : Prop :=
  (∀ N, 1 ≤ N → N ≤ 16 → (State.resetWith N).Inv) ∧ State.reset.Inv

/-- R26 (the spec marks it as derived): in every valid slot, between commands, `BLEN = CNT mod 64`; and BLEN is at most 63 (R24). -/
def Obligations.BlenIsCntMod64 : Prop :=
  ∀ (N n : Nat) (acts : List HostAction) (t : State) (c : SlotIdx) (ctx : Context),
    run n ((State.resetWith N).withPending acts) = .next t → t.context? c = some ctx →
    ctx.buf.length = ctx.cnt.toNat % 64 ∧ ctx.buf.length ≤ 63

/-! ## Streams: what whole runs do -/

/-- R164 (the spec marks it as derived): ABSORBs carrying the bytes of `data` in order leave the slot as DOC's batch `update(data)` would; an empty
`data` changes nothing. -/
def Obligations.AbsorbsAreDocUpdate : Prop :=
  ∀ (s : State) (c : SlotIdx) (ctx : Context) (chunks : List (List Byte)) (rest : List HostAction),
    s.context? c = some ctx → ctx.Inv → (∀ b ∈ chunks, 1 ≤ b.length ∧ b.length ≤ 4) →
    s.pending = issue (chunks.map (.absorb c)) ++ rest →
    docUpdate ctx [] = ctx
    ∧ ∃ t, run chunks.length s = .next t ∧ t.context? c = some (docUpdate ctx chunks.flatten) ∧ t.pending = rest

/-- R175 (the spec marks it as derived): a slot's state depends only on the concatenation of the bytes absorbed, not on how they were split, on DIGESTs
in between, or on commands to other slots. -/
def Obligations.ChunkingDoesNotMatter : Prop :=
  ∀ (s : State) (c : SlotIdx) (acts rest : List HostAction), c.val < s.nctx →
    (∀ a ∈ acts, a.replacesSlot c = false) →
    s.pending = .command (encode (.init c)) :: acts ++ rest →
    ∃ t, run (acts.length + 1) s = .next t ∧ t.pending = rest
      ∧ t.context? c = some (absorbBytes Context.fresh (bytesFor c acts))

/-- R176 as a run: INIT, then any interactions that do not replace the slot, then DIGEST, leave RIPEMD-160 of the bytes
absorbed in DOUT, with DV and DCTX. -/
def Obligations.DigestOfAStreamIsRmd160 : Prop :=
  ∀ (s : State) (c : SlotIdx) (acts rest : List HostAction), c.val < s.nctx →
    (∀ a ∈ acts, a.replacesSlot c = false) →
    s.pending = .command (encode (.init c)) :: acts ++ .command (encode (.digest c)) :: rest →
    ∃ t, run (acts.length + 2) s = .next t ∧ t.pending = rest
      ∧ t.dout = rmd160Words (bytesFor c acts) ∧ t.status.last = .ok ∧ t.status.dv = true ∧ t.status.dctx = c

/-- R171: DIGEST does not change the slot, and repeated with no command writing the slot in between it writes the same
DOUT. -/
def Obligations.DigestIsRepeatable : Prop :=
  ∀ (s : State) (c : SlotIdx) (ctx : Context) (acts rest : List HostAction), s.context? c = some ctx →
    (∀ a ∈ acts, a.writesSlot c = false) →
    s.pending = .command (encode (.digest c)) :: acts ++ .command (encode (.digest c)) :: rest →
    ∃ t u, run 1 s = .next t ∧ t.slots = s.slots
      ∧ run (acts.length + 2) s = .next u ∧ u.context? c = some ctx ∧ u.dout = t.dout

/-- R174: no Finalized lock. An ABSORB after a DIGEST leaves the slots as though the DIGEST had not happened. -/
def Obligations.DigestLocksNothing : Prop :=
  ∀ (s : State) (c e : SlotIdx) (bytes : List Byte), s.valid c = true →
    ∃ t u v, exec (.digest c) s = .next t ∧ exec (.absorb e bytes) t = .next u
      ∧ exec (.absorb e bytes) s = .next v ∧ u.slots = v.slots ∧ u.status.last = v.status.last

/-- R173 (the spec marks it as derived): after COPY d, s the two slots evolve independently, and the copy's digest is that of a fresh context fed the
source's input followed by what the copy absorbed since. -/
def Obligations.CopiesEvolveIndependently : Prop :=
  ∀ (s : State) (d src : SlotIdx) (x : List Byte) (acts rest : List HostAction), d ≠ src → d.val < s.nctx →
    s.context? src = some (absorbBytes Context.fresh x) →
    (∀ a ∈ acts, a.replacesSlot d = false ∧ a.replacesSlot src = false) →
    s.pending = .command (encode (.copy d src)) :: acts ++ .command (encode (.digest d)) :: rest →
    ∃ t, run (acts.length + 2) s = .next t
      ∧ t.dout = rmd160Words (x ++ bytesFor d acts)
      ∧ t.context? d = some (absorbBytes Context.fresh (x ++ bytesFor d acts))
      ∧ t.context? src = some (absorbBytes Context.fresh (x ++ bytesFor src acts))

/-- R35: a command writes no slot but the one it names to write, and reads only the slots it names: two states that agree
on NCTX and on those slots give the written slot, the result code and a digest the same values. -/
def Obligations.CommandsReadOnlyTheirSlots : Prop :=
  ∀ (i : Instr) (s1 s2 : State), s1.nctx = s2.nctx →
    (∀ c ∈ slotsTouched i, s1.context? c = s2.context? c) →
    ∃ t1 t2, exec i s1 = .next t1 ∧ exec i s2 = .next t2
      ∧ (∀ c, c ∉ slotsWritten i → t1.context? c = s1.context? c)
      ∧ (∀ c ∈ slotsWritten i, t1.context? c = t2.context? c)
      ∧ t1.status.last = t2.status.last
      ∧ (∀ c, i = .digest c → t1.status.last = .ok → t1.dout = t2.dout)

/-- R62 (the spec marks it as derived from R35 and R61): successful commands on different slots commute but for STATUS and DOUT, which reflect the later command. -/
def Obligations.DisjointCommandsCommute : Prop :=
  ∀ (i j : Instr) (s ti tj : State),
    (∀ c ∈ slotsTouched i, c ∉ slotsTouched j) →
    exec i s = .next ti → ti.status.last = .ok → exec j s = .next tj → tj.status.last = .ok →
    ∃ tij tji, exec j ti = .next tij ∧ exec i tj = .next tji
      ∧ tij.slots = tji.slots ∧ tij.status.last = .ok ∧ tji.status.last = .ok
      ∧ ((∀ c, i ≠ .digest c) → (∀ c, j ≠ .digest c) → tij = tji)
      ∧ (∀ c, j = .digest c → tij.dout = tj.dout ∧ tij.status.dctx = c)

/-- A slot is affected by its own commands alone (R35, R63, R212): whatever the port interleaves with them, it ends
as though only the interactions that write it had come. -/
def Obligations.SlotSeesOnlyItsOwnCommands : Prop :=
  ∀ (s : State) (c : SlotIdx) (acts : List HostAction),
    (∀ a ∈ acts, ∀ cw src, a = .command cw → decode cw ≠ .command (.copy c src)) →
    ∃ t u, runAll (s.withPending acts) = .next t
      ∧ runAll (s.withPending (acts.filter (HostAction.writesSlot c))) = .next u
      ∧ t.context? c = u.context? c

/-- The engine refines DOC's machine of contexts: from reset, and through every interaction, each slot holds exactly
the context of the message DOC's operations give it, and DIGEST answers RIPEMD-160 of that message (R164, R173 to R176). -/
def Obligations.EngineRefinesDocContexts : Prop :=
  (∀ N, Represents (State.resetWith N) (List.replicate N none))
  ∧ ∀ (s t : State) (m : Messages) (a : HostAction) (rest : List HostAction), Represents s m →
      s.pending = a :: rest → step s = .next t →
      Represents t (docStep a m)
      ∧ (∀ cw (c : SlotIdx) x, a = .command cw → decode cw = .command (.digest c) → m[c.val]? = some (some x) →
          t.dout = rmd160Words x ∧ t.status.last = .ok)

/-! ## Pseudo-commands and the host's conventions -/

/-- R85: UPDATE's expansion carries the bytes in order, four to a command but the last, and any other split of them has
the same effect. -/
def Obligations.UpdateExpansion : Prop :=
  ∀ (c : SlotIdx) (s : List Byte),
    expandUpdate c s = (updateChunks s).map (.absorb c)
    ∧ (updateChunks s).flatten = s
    ∧ (updateChunks s).length = (s.length + 3) / 4
    ∧ (∀ j (h : j < (updateChunks s).length), (updateChunks s)[j] = (s.take (min (4 * j + 4) s.length)).drop (4 * j))
    ∧ (∀ b ∈ (updateChunks s).dropLast, b.length = 4)
    ∧ (∀ b ∈ updateChunks s, 1 ≤ b.length ∧ b.length ≤ 4)
    ∧ expandUpdate c [] = []
    ∧ (∀ (chunks : List (List Byte)) (ctx : Context), chunks.flatten = s →
        chunks.foldl absorbBytes ctx = (updateChunks s).foldl absorbBytes ctx)

/-- ONESHOT expands as R87 says, and with five DOUT reads (R192) gives the host the words of RIPEMD-160 of the bytes (R176,
which the spec marks as derived), whatever the slot held. -/
def Obligations.OneshotReadsTheDigest : Prop :=
  ∀ (s : State) (c : SlotIdx) (m : List Byte) (rest : List HostAction), c.val < s.nctx →
    s.pending = oneshotActions c m ++ rest →
    expandOneshot c m = .init c :: expandUpdate c m ++ [.digest c]
    ∧ ∃ t, run (oneshotActions c m).length s = .next t ∧ t.pending = rest
      ∧ t.readings = s.readings ++ (List.finRange 5).map fun w => .dout w ((rmd160Words m).get w)

/-- R193, R192, R190: `hash` of a string is the lowercase hex of RIPEMD-160 of its bytes; a string with a character
outside 0..255, and anything that is no string, is rejected. The host uses slot 0 of an engine right after reset, the
model's choice (notes/assumptions/12.md). -/
def Obligations.HashStringIsRmd160 : Prop :=
  (∀ (text : List Char) (bytes : List Byte), textToBytes text = .ok bytes →
    hashString (.string text) = .ok (hexdigest (rmd160Words bytes)))
  ∧ (∀ text, textToBytes text = .error .encoding → hashString (.string text) = .error .encoding)
  ∧ hashString .other = .error .invalidInputType

/-- R190, R191 (the spec marks the nibble order as derived from the known answers): text maps character by character to
code values, rejected outside 0..255; a hex digest is 40 characters, the digest's 20 bytes in order, byte k of word w
at characters 2(4w+k) and 2(4w+k)+1, its high nibble first, in lowercase digits. -/
def Obligations.TextAndHexConventions : Prop :=
  (∀ text : List Char, (∀ ch ∈ text, ch.toNat ≤ 255) →
    textToBytes text = .ok (text.map fun ch => BitVec.ofNat 8 ch.toNat))
  ∧ (∀ text : List Char, (∃ ch ∈ text, 255 < ch.toNat) → textToBytes text = .error .encoding)
  ∧ (∀ h : HashState, (hexdigest h).length = 40)
  ∧ (∀ (h : HashState) (w : Fin 5) (k : Fin 4),
    let b := (h.get w).extractLsb' (8 * k.val) 8
    (hexdigest h)[2 * (4 * w.val + k.val)]? = some (hexDigit (b.extractLsb' 4 4))
    ∧ (hexdigest h)[2 * (4 * w.val + k.val) + 1]? = some (hexDigit (b.extractLsb' 0 4)))
  ∧ (∀ b : Byte, hexByte b = [hexDigit (b.extractLsb' 4 4), hexDigit (b.extractLsb' 0 4)])
  ∧ (List.range 16).map (fun v => hexDigit (BitVec.ofNat 4 v)) = "0123456789abcdef".toList

/-- R54, R170: the digest is 20 bytes, and its byte `4w + k` is `DOUT[w][8k+7:8k]`. -/
def Obligations.DigestByteOrder : Prop :=
  ∀ h : HashState, (digestBytes h).length = 20
    ∧ digestBytes h = ((List.finRange 5).flatMap fun w => le32bytes (h.get w))
    ∧ ∀ (w : Fin 5) (k : Fin 4), (digestBytes h)[4 * w.val + k.val]? = some ((h.get w).extractLsb' (8 * k.val) 8)

/-- The six known-answer digests of the source (V-KAT). -/
def Obligations.KnownAnswerDigests : Prop :=
  (["", "a", "abc", "hello world", "The quick brown fox jumps over the lazy dog",
    "The quick brown fox jumps over the lazy cog"].map fun text =>
      (textToBytes text.toList).map fun bytes => hexdigest (rmd160Words bytes)) =
  ["9c1185a5c5e9fc54612808977ee8f548b2258d31", "0bdc9d2d256b3ee9daae347be6f4dc835a467ffe",
   "8eb208f7e05d987a9b044a8e98c6b087f15a0bfc", "98c615784ccb5fe5936fbc0cbe9dfdb408d92f0f",
   "37f332f68db77bd9d7edd4969571ad671cf9dd3b", "132072df690933835eb8b6ad0b77e7b6f14acad7"].map
      fun hex => Except.ok hex.toList

/-! ## Steps from every state, behind two of the run statements -/

/-- R206: a step that leaves DV set either keeps DOUT, DV and DCTX, or is a DIGEST of slot DCTX, and DOUT is then the
digest of the context that slot holds. -/
def Obligations.StepKeepsOrWritesTheDigest : Prop :=
  ∀ s t : State, step s = .next t → t.status.dv = true →
    (t.dout = s.dout ∧ s.status.dv = true ∧ t.status.dctx = s.status.dctx)
    ∨ ∃ cw rest ctx, s.pending = .command cw :: rest ∧ decode cw = .command (.digest t.status.dctx)
        ∧ s.context? t.status.dctx = some ctx ∧ t.dout = finalize ctx

/-- R25, R233: a slot without a context stays so through every step but an INIT of it, or a COPY into it, whose checks
pass; a failing one leaves it empty too. -/
def Obligations.EmptySlotStaysEmptyUntilTargeted : Prop :=
  ∀ (s t : State) (c : SlotIdx), s.context? c = none → step s = .next t →
    t.context? c = none
    ∨ ∃ cw rest, s.pending = .command cw :: rest ∧ expectedCode cw s = .ok
        ∧ (decode cw = .command (.init c) ∨ ∃ src, decode cw = .command (.copy c src))
end

