-- ==== Sys2Proof/Laws/State.lean ====
section
/-! SUPPORT. One lemma per field per state update, so that no proof unfolds a record update. -/

namespace Sys2Proof.Machine

variable (s : State) (c : SlotIdx) (ctx : Context) (code : ResultCode) (h : HashState) (rest : List HostAction)

/-! ## STATUS -/

@[simp] theorem Status.afterError_last (st : Status) : (st.afterError code).last = code := rfl
@[simp] theorem Status.afterError_sticky (st : Status) : (st.afterError code).sticky = true := rfl
@[simp] theorem Status.afterError_dv (st : Status) : (st.afterError code).dv = st.dv := rfl
@[simp] theorem Status.afterError_dctx (st : Status) : (st.afterError code).dctx = st.dctx := rfl
@[simp] theorem Status.afterOk_last (st : Status) : st.afterOk.last = .ok := rfl
@[simp] theorem Status.afterOk_sticky (st : Status) : st.afterOk.sticky = st.sticky := rfl
@[simp] theorem Status.afterOk_dv (st : Status) : st.afterOk.dv = st.dv := rfl
@[simp] theorem Status.afterOk_dctx (st : Status) : st.afterOk.dctx = st.dctx := rfl
@[simp] theorem Status.afterDigest_last (st : Status) : (st.afterDigest c).last = st.last := rfl
@[simp] theorem Status.afterDigest_sticky (st : Status) : (st.afterDigest c).sticky = st.sticky := rfl
@[simp] theorem Status.afterDigest_dv (st : Status) : (st.afterDigest c).dv = true := rfl
@[simp] theorem Status.afterDigest_dctx (st : Status) : (st.afterDigest c).dctx = c := rfl

/-! ## raiseErr -/

@[simp] theorem State.raiseErr_slots : (s.raiseErr code).slots = s.slots := rfl
@[simp] theorem State.raiseErr_status : (s.raiseErr code).status = s.status.afterError code := rfl
@[simp] theorem State.raiseErr_dout : (s.raiseErr code).dout = s.dout := rfl
@[simp] theorem State.raiseErr_pending : (s.raiseErr code).pending = s.pending := rfl
@[simp] theorem State.raiseErr_readings : (s.raiseErr code).readings = s.readings := rfl
@[simp] theorem State.raiseErr_draws : (s.raiseErr code).draws = s.draws := rfl

/-! ## complete -/

@[simp] theorem State.complete_slots : s.complete.slots = s.slots := rfl
@[simp] theorem State.complete_status : s.complete.status = s.status.afterOk := rfl
@[simp] theorem State.complete_dout : s.complete.dout = s.dout := rfl
@[simp] theorem State.complete_pending : s.complete.pending = s.pending := rfl
@[simp] theorem State.complete_readings : s.complete.readings = s.readings := rfl
@[simp] theorem State.complete_draws : s.complete.draws = s.draws := rfl

/-! ## setSlot -/

@[simp] theorem State.setSlot_slots : (s.setSlot c ctx).slots = s.slots.set c.val (some ctx) := rfl
@[simp] theorem State.setSlot_status : (s.setSlot c ctx).status = s.status := rfl
@[simp] theorem State.setSlot_dout : (s.setSlot c ctx).dout = s.dout := rfl
@[simp] theorem State.setSlot_pending : (s.setSlot c ctx).pending = s.pending := rfl
@[simp] theorem State.setSlot_readings : (s.setSlot c ctx).readings = s.readings := rfl
@[simp] theorem State.setSlot_draws : (s.setSlot c ctx).draws = s.draws := rfl

/-! ## writeDigest -/

@[simp] theorem State.writeDigest_slots : (s.writeDigest c h).slots = s.slots := rfl
@[simp] theorem State.writeDigest_status : (s.writeDigest c h).status = s.status.afterDigest c := rfl
@[simp] theorem State.writeDigest_dout : (s.writeDigest c h).dout = h := rfl
@[simp] theorem State.writeDigest_pending : (s.writeDigest c h).pending = s.pending := rfl
@[simp] theorem State.writeDigest_readings : (s.writeDigest c h).readings = s.readings := rfl
@[simp] theorem State.writeDigest_draws : (s.writeDigest c h).draws = s.draws := rfl

/-! ## withPending -/

@[simp] theorem State.withPending_slots : (s.withPending rest).slots = s.slots := rfl
@[simp] theorem State.withPending_status : (s.withPending rest).status = s.status := rfl
@[simp] theorem State.withPending_dout : (s.withPending rest).dout = s.dout := rfl
@[simp] theorem State.withPending_pending : (s.withPending rest).pending = rest := rfl
@[simp] theorem State.withPending_readings : (s.withPending rest).readings = s.readings := rfl
@[simp] theorem State.withPending_draws : (s.withPending rest).draws = s.draws := rfl

/-! ## readStatus -/

@[simp] theorem State.readStatus_slots : s.readStatus.slots = s.slots := rfl
@[simp] theorem State.readStatus_status : s.readStatus.status = s.status := rfl
@[simp] theorem State.readStatus_dout : s.readStatus.dout = s.dout := rfl
@[simp] theorem State.readStatus_pending : s.readStatus.pending = s.pending := rfl
@[simp] theorem State.readStatus_readings : s.readStatus.readings = s.readings ++ [.status s.status.word] := rfl
@[simp] theorem State.readStatus_draws : s.readStatus.draws = s.draws := rfl

/-! ## readDout -/

@[simp] theorem State.readDout_slots (w : Fin 5) : (s.readDout w).slots = s.slots := by
  unfold State.readDout; split <;> rfl
@[simp] theorem State.readDout_status (w : Fin 5) : (s.readDout w).status = s.status := by
  unfold State.readDout; split <;> rfl
@[simp] theorem State.readDout_dout (w : Fin 5) : (s.readDout w).dout = s.dout := by
  unfold State.readDout; split <;> rfl
@[simp] theorem State.readDout_pending (w : Fin 5) : (s.readDout w).pending = s.pending := by
  unfold State.readDout; split <;> rfl

/-! ## engineReset -/

@[simp] theorem State.engineReset_slots : s.engineReset.slots = List.replicate s.nctx none := rfl
@[simp] theorem State.engineReset_status : s.engineReset.status = Status.reset := rfl
@[simp] theorem State.engineReset_pending : s.engineReset.pending = s.pending := rfl
@[simp] theorem State.engineReset_readings : s.engineReset.readings = s.readings := rfl
@[simp] theorem State.engineReset_draws : s.engineReset.draws = s.draws + 5 := rfl

/-! ## The state after reset -/

@[simp] theorem State.resetWith_slots (n : Nat) : (State.resetWith n).slots = List.replicate n none := rfl
@[simp] theorem State.resetWith_status (n : Nat) : (State.resetWith n).status = Status.reset := rfl
@[simp] theorem State.resetWith_pending (n : Nat) : (State.resetWith n).pending = [] := rfl
@[simp] theorem State.resetWith_readings (n : Nat) : (State.resetWith n).readings = [] := rfl

end Sys2Proof.Machine
end

