-- ==== Sys2Proof/Laws/Slots.lean ====
section
/-! SUPPORT. Reading and writing slots: what `nctx` and `context?` are after each operation, and what `readSlot` answers. -/

namespace Sys2Proof.Machine

variable (s : State) (c d : SlotIdx) (ctx : Context) (code : ResultCode) (h : HashState) (rest : List HostAction)

/-! ## NCTX never changes -/

@[simp] theorem State.nctx_raiseErr : (s.raiseErr code).nctx = s.nctx := rfl
@[simp] theorem State.nctx_complete : s.complete.nctx = s.nctx := rfl
@[simp] theorem State.nctx_setSlot : (s.setSlot c ctx).nctx = s.nctx := by simp [State.nctx]
@[simp] theorem State.nctx_writeDigest : (s.writeDigest c h).nctx = s.nctx := rfl
@[simp] theorem State.nctx_withPending : (s.withPending rest).nctx = s.nctx := rfl
@[simp] theorem State.nctx_readStatus : s.readStatus.nctx = s.nctx := rfl
@[simp] theorem State.nctx_readDout (w : Fin 5) : (s.readDout w).nctx = s.nctx := by simp [State.nctx]
@[simp] theorem State.nctx_engineReset : s.engineReset.nctx = s.nctx := by simp [State.nctx]
@[simp] theorem State.nctx_resetWith (n : Nat) : (State.resetWith n).nctx = n := by simp [State.nctx]

/-! ## Contexts -/

/-- Two states with the same slots have the same contexts. -/
theorem State.context?_congr {s t : State} (hst : s.slots = t.slots) (c : SlotIdx) : s.context? c = t.context? c := by
  simp [State.context?, hst]

@[simp] theorem State.context?_raiseErr : (s.raiseErr code).context? c = s.context? c := rfl
@[simp] theorem State.context?_complete : s.complete.context? c = s.context? c := rfl
@[simp] theorem State.context?_writeDigest : (s.writeDigest d h).context? c = s.context? c := rfl
@[simp] theorem State.context?_withPending : (s.withPending rest).context? c = s.context? c := rfl
@[simp] theorem State.context?_readStatus : s.readStatus.context? c = s.context? c := rfl
@[simp] theorem State.context?_readDout (w : Fin 5) : (s.readDout w).context? c = s.context? c :=
  State.context?_congr (s.readDout_slots w) c
@[simp] theorem State.context?_engineReset : s.engineReset.context? c = none := by
  simp only [State.context?, State.engineReset_slots, List.getElem?_replicate]; split <;> rfl
@[simp] theorem State.context?_resetWith (n : Nat) : (State.resetWith n).context? c = none := by
  simp only [State.context?, State.resetWith_slots, List.getElem?_replicate]; split <;> rfl

/-- Only a slot in range holds a context. -/
theorem State.lt_nctx_of_context? {s : State} {c : SlotIdx} {ctx : Context} (hc : s.context? c = some ctx) :
    c.val < s.nctx := by
  simp only [State.context?, Option.join_eq_some_iff] at hc
  exact (List.getElem?_eq_some_iff.mp hc).1

/-- A slot written holds what was written. -/
theorem State.context?_setSlot_self {s : State} {c : SlotIdx} (hc : c.val < s.nctx) (ctx : Context) :
    (s.setSlot c ctx).context? c = some ctx := by
  have hl : c.val < s.slots.length := hc
  simp [State.context?, hl]

/-- A write to one slot leaves every other alone (R35). -/
theorem State.context?_setSlot_other {s : State} {c d : SlotIdx} (hcd : d ≠ c) (ctx : Context) :
    (s.setSlot c ctx).context? d = s.context? d := by
  have hv : ¬ c.val = d.val := fun e => hcd (Fin.ext e.symm)
  simp [State.context?, hv]

theorem State.inRange_iff : s.inRange c = true ↔ c.val < s.nctx := by simp [State.inRange]

theorem State.valid_iff : s.valid c = true ↔ ∃ ctx, s.context? c = some ctx := by
  simp [State.valid, Option.isSome_iff_exists]

/-! ## The read operand (R202) -/

/-- A valid slot is read. -/
theorem State.readSlot_of_context? {s : State} {c : SlotIdx} {ctx : Context} (hc : s.context? c = some ctx) :
    s.readSlot c = .ok ctx := by
  simp [State.readSlot, (s.inRange_iff c).mpr (State.lt_nctx_of_context? hc), hc]

/-- An index out of range answers ERR_CTX. -/
theorem State.readSlot_of_nctx_le {s : State} {c : SlotIdx} (hc : s.nctx ≤ c.val) : s.readSlot c = .error .errCtx := by
  simp [State.readSlot, State.inRange, Nat.not_lt.mpr hc]

/-- A slot in range without a context answers ERR_NOCTX. -/
theorem State.readSlot_of_none {s : State} {c : SlotIdx} (hc : c.val < s.nctx) (hn : s.context? c = none) :
    s.readSlot c = .error .errNoctx := by
  simp [State.readSlot, (s.inRange_iff c).mpr hc, hn]

/-- Everything the read operand can answer. -/
theorem State.readSlot_cases (s : State) (c : SlotIdx) :
    (∃ ctx, s.context? c = some ctx ∧ s.readSlot c = .ok ctx)
    ∨ (s.nctx ≤ c.val ∧ s.readSlot c = .error .errCtx)
    ∨ (c.val < s.nctx ∧ s.context? c = none ∧ s.readSlot c = .error .errNoctx) := by
  by_cases hr : c.val < s.nctx
  · cases hc : s.context? c with
    | none => exact .inr (.inr ⟨hr, rfl, State.readSlot_of_none hr hc⟩)
    | some ctx => exact .inl ⟨ctx, rfl, State.readSlot_of_context? hc⟩
  · exact .inr (.inl ⟨by omega, State.readSlot_of_nctx_le (by omega)⟩)

end Sys2Proof.Machine
end

