-- ==== Sys2Proof/Laws/Stream.lean ====
section
/-! SUPPORT. The byte buffer: absorbing is a fold, so it splits at every point of the input, and it keeps DOC's invariants. -/

namespace Sys2Proof.Machine

@[simp] theorem absorbBytes_nil (ctx : Context) : absorbBytes ctx [] = ctx := rfl

@[simp] theorem absorbBytes_cons (ctx : Context) (b : Byte) (bytes : List Byte) :
    absorbBytes ctx (b :: bytes) = absorbBytes (absorbByte ctx b) bytes := rfl

/-- Absorbing a concatenation is absorbing its parts in order (R175). -/
theorem absorbBytes_append (ctx : Context) (x y : List Byte) :
    absorbBytes ctx (x ++ y) = absorbBytes (absorbBytes ctx x) y := by
  simp [absorbBytes, List.foldl_append]

/-- A context that fewer than 63 bytes wait in takes the byte into its buffer. -/
theorem absorbByte_of_lt {ctx : Context} (hl : ctx.buf.length < 63) (b : Byte) :
    absorbByte ctx b = { ctx with cnt := ctx.cnt + 1#64, buf := ctx.buf ++ [b] } := by
  have hn : ¬ (ctx.buf ++ [b]).length = 64 := by simp; omega
  simp only [absorbByte, hn, if_false]

/-- The 64th byte completes the block. -/
theorem absorbByte_of_eq {ctx : Context} (hl : ctx.buf.length = 63) (b : Byte) :
    absorbByte ctx b = { h := compress ctx.h (ctx.buf ++ [b]), cnt := ctx.cnt + 1#64, buf := [] } := by
  have hn : (ctx.buf ++ [b]).length = 64 := by simp [hl]
  simp only [absorbByte, hn, if_true]

/-- The context INIT constructs meets the invariant. -/
theorem Context.fresh_inv : Context.fresh.Inv := ⟨by decide, by decide⟩

/-- One absorbed byte keeps the invariant (R26). -/
theorem absorbByte_inv {ctx : Context} (hi : ctx.Inv) (b : Byte) : (absorbByte ctx b).Inv := by
  obtain ⟨hl, hm⟩ := hi
  have hc : (ctx.cnt + 1#64).toNat % 64 = (ctx.cnt.toNat + 1) % 64 := by
    simp [BitVec.toNat_add]
  rcases Nat.lt_or_ge ctx.buf.length 63 with h | h
  · rw [absorbByte_of_lt h]
    exact ⟨by simp; omega, by simp only [List.length_append, List.length_singleton]; rw [hc]; omega⟩
  · rw [absorbByte_of_eq (by omega)]
    exact ⟨by simp, by simp only [List.length_nil]; rw [hc]; omega⟩

/-- Absorbed bytes keep the invariant. -/
theorem absorbBytes_inv {ctx : Context} (hi : ctx.Inv) (bytes : List Byte) : (absorbBytes ctx bytes).Inv := by
  induction bytes generalizing ctx with
  | nil => exact hi
  | cons b bytes ih => exact ih (absorbByte_inv hi b)

end Sys2Proof.Machine
end

