-- ==== Sys2Proof/Laws/Exec.lean ====
section
/-! SUPPORT. Everything a command can do, said once: the inversion lemmas of `exec` and of a command word. -/

namespace Sys2Proof.Machine

/-- Everything a command can do: it raises ERR_CTX or ERR_NOCTX, or it writes the one slot it names, or it writes a
digest. -/
theorem exec_cases {i : Instr} {s t : State} (hx : exec i s = .next t) :
    (∃ code, (code = .errCtx ∨ code = .errNoctx) ∧ t = s.raiseErr code)
    ∨ (∃ c, i = .init c ∧ c.val < s.nctx ∧ t = (s.setSlot c Context.fresh).complete)
    ∨ (∃ c bytes ctx, i = .absorb c bytes ∧ s.context? c = some ctx
        ∧ t = (s.setSlot c (absorbBytes ctx bytes)).complete)
    ∨ (∃ c ctx, i = .digest c ∧ s.context? c = some ctx ∧ t = (s.writeDigest c (finalize ctx)).complete)
    ∨ (∃ d src ctx, i = .copy d src ∧ d.val < s.nctx ∧ s.context? src = some ctx
        ∧ t = (s.setSlot d ctx).complete) := by
  cases i with
  | init c =>
    simp only [exec, execInit] at hx
    split at hx
    · cases hx; exact .inr (.inl ⟨c, rfl, (s.inRange_iff c).mp ‹_›, rfl⟩)
    · cases hx; exact .inl ⟨_, .inl rfl, rfl⟩
  | absorb c bytes =>
    simp only [exec, execAbsorb] at hx
    rcases s.readSlot_cases c with ⟨ctx, hc, hr⟩ | ⟨_, hr⟩ | ⟨_, _, hr⟩ <;> rw [hr] at hx <;> cases hx
    · exact .inr (.inr (.inl ⟨c, bytes, ctx, rfl, hc, rfl⟩))
    · exact .inl ⟨_, .inl rfl, rfl⟩
    · exact .inl ⟨_, .inr rfl, rfl⟩
  | digest c =>
    simp only [exec, execDigest] at hx
    rcases s.readSlot_cases c with ⟨ctx, hc, hr⟩ | ⟨_, hr⟩ | ⟨_, _, hr⟩ <;> rw [hr] at hx <;> cases hx
    · exact .inr (.inr (.inr (.inl ⟨c, ctx, rfl, hc, rfl⟩)))
    · exact .inl ⟨_, .inl rfl, rfl⟩
    · exact .inl ⟨_, .inr rfl, rfl⟩
  | copy d src =>
    simp only [exec, execCopy] at hx
    split at hx
    · rcases s.readSlot_cases src with ⟨ctx, hc, hr⟩ | ⟨_, hr⟩ | ⟨_, _, hr⟩ <;> rw [hr] at hx <;> cases hx
      · exact .inr (.inr (.inr (.inr ⟨d, src, ctx, rfl, (s.inRange_iff d).mp ‹_›, hc, rfl⟩)))
      · exact .inl ⟨_, .inl rfl, rfl⟩
      · exact .inl ⟨_, .inr rfl, rfl⟩
    · cases hx; exact .inl ⟨_, .inl rfl, rfl⟩

/-- INIT of a slot in range. -/
theorem exec_init {s : State} {c : SlotIdx} (hc : c.val < s.nctx) :
    exec (.init c) s = .next (s.setSlot c Context.fresh).complete := by
  simp [exec, execInit, (s.inRange_iff c).mpr hc]

/-- ABSORB on a valid slot. -/
theorem exec_absorb {s : State} {c : SlotIdx} {ctx : Context} (hc : s.context? c = some ctx) (bytes : List Byte) :
    exec (.absorb c bytes) s = .next (s.setSlot c (absorbBytes ctx bytes)).complete := by
  simp [exec, execAbsorb, State.readSlot_of_context? hc]

/-- DIGEST of a valid slot. -/
theorem exec_digest {s : State} {c : SlotIdx} {ctx : Context} (hc : s.context? c = some ctx) :
    exec (.digest c) s = .next (s.writeDigest c (finalize ctx)).complete := by
  simp [exec, execDigest, State.readSlot_of_context? hc]

/-- COPY from a valid slot to a slot in range. -/
theorem exec_copy {s : State} {d src : SlotIdx} {ctx : Context} (hd : d.val < s.nctx) (hc : s.context? src = some ctx) :
    exec (.copy d src) s = .next (s.setSlot d ctx).complete := by
  simp [exec, execCopy, (s.inRange_iff d).mpr hd, State.readSlot_of_context? hc]

/-- Everything a command word can do. -/
theorem runWord_cases {cw : U64} {s t : State} (hx : runWord cw s = .next t) :
    (∃ e, decode cw = .illegal e ∧ t = s.raiseErr (illegalCode e)) ∨ (∃ i, decode cw = .command i ∧ exec i s = .next t) := by
  simp only [runWord] at hx
  split at hx
  · cases hx; exact .inl ⟨_, ‹_›, rfl⟩
  · exact .inr ⟨_, ‹_›, hx⟩

end Sys2Proof.Machine
end

