-- ==== Sys2Proof/Laws/PerInstr.lean ====
section
/-! SUPPORT. The family `EncodeLegal`, one lemma per constructor: an instruction's canonical word carries its own legal opcode and no reserved bit (R78, R80). -/

namespace Sys2Proof.Laws.EncodeLegal

/-- The opcode of an instruction (R78). -/
def opcodeOf : Instr → BitVec 8
  | .init _ => 0x01#8
  | .absorb _ _ => 0x02#8
  | .digest _ => 0x03#8
  | .copy _ _ => 0x04#8

/-- The canonical word carries the instruction's opcode, and its reserved bits are zero. -/
def Statement (i : Instr) : Prop := opcField (encode i) = opcodeOf i ∧ rsvField (encode i) = 0#14

/-- The two fields of a packed word. -/
theorem packWord_fields (data : BitVec 32) (rsv : BitVec 14) (nbm1 : BitVec 2) (src ctx : SlotIdx) (opc : BitVec 8) :
    opcField (packWord data rsv nbm1 src ctx opc) = opc ∧ rsvField (packWord data rsv nbm1 src ctx opc) = rsv := by
  constructor
  · apply BitVec.eq_of_getLsbD_eq
    intro k hk
    simp only [opcField, packWord, BitVec.getLsbD_extractLsb', BitVec.getLsbD_append, hk, decide_true, Bool.true_and]
    rw [if_pos (by omega), Nat.zero_add]
  · apply BitVec.eq_of_getLsbD_eq
    intro k hk
    simp only [rsvField, packWord, BitVec.getLsbD_extractLsb', BitVec.getLsbD_append, hk, decide_true, Bool.true_and]
    rw [if_neg (by omega), if_neg (by omega), if_neg (by omega), if_neg (by omega), if_pos (by omega)]
    exact congrArg _ (by omega)

theorem init (c : SlotIdx) : Statement (.init c) := packWord_fields ..
theorem absorb (c : SlotIdx) (bytes : List Byte) : Statement (.absorb c bytes) := packWord_fields ..
theorem digest (c : SlotIdx) : Statement (.digest c) := packWord_fields ..
theorem copy (d s : SlotIdx) : Statement (.copy d s) := packWord_fields ..

end Sys2Proof.Laws.EncodeLegal
end

