-- ==== Sys2Proof/Laws/Run.lean ====
section
/-! SUPPORT. Everything a step can do, and how runs compose. -/

namespace Sys2Proof.Machine

/-- A step with nothing offered waits. -/
theorem step_of_nil {s : State} (hp : s.pending = []) : step s = .next s := by simp [step, hp]

/-- A step performs the oldest interaction. -/
theorem step_of_cons {s : State} {a : HostAction} {rest : List HostAction} (hp : s.pending = a :: rest) :
    step s = perform a (s.withPending rest) := by simp [step, hp]

/-- Everything a step can do. -/
theorem step_cases {s t : State} (hx : step s = .next t) :
    (s.pending = [] ∧ t = s)
    ∨ (∃ cw rest, s.pending = .command cw :: rest ∧ runWord cw (s.withPending rest) = .next t)
    ∨ (∃ rest, s.pending = .readStatus :: rest ∧ t = (s.withPending rest).readStatus)
    ∨ (∃ w rest, s.pending = .readDout w :: rest ∧ t = (s.withPending rest).readDout w)
    ∨ (∃ rest, s.pending = .reset :: rest ∧ t = (s.withPending rest).engineReset) := by
  cases hp : s.pending with
  | nil => rw [step_of_nil hp] at hx; cases hx; exact .inl ⟨rfl, rfl⟩
  | cons a rest =>
    rw [step_of_cons hp] at hx
    cases a with
    | command cw => exact .inr (.inl ⟨cw, rest, rfl, hx⟩)
    | readStatus => cases hx; exact .inr (.inr (.inl ⟨rest, rfl, rfl⟩))
    | readDout w => cases hx; exact .inr (.inr (.inr (.inl ⟨w, rest, rfl, rfl⟩)))
    | reset => cases hx; exact .inr (.inr (.inr (.inr ⟨rest, rfl, rfl⟩)))

@[simp] theorem run_zero (s : State) : run 0 s = .next s := rfl

/-- A run of one step and more. -/
theorem run_succ {s t : State} (hx : step s = .next t) (k : Nat) : run (k + 1) s = run k t := by simp [run, hx]

/-- Runs compose. -/
theorem run_add {s t : State} {m : Nat} (hx : run m s = .next t) (n : Nat) : run (m + n) s = run n t := by
  induction m generalizing s with
  | zero => cases hx; simp
  | succ m ih =>
    cases hs : step s with
    | next u =>
      rw [run_succ hs] at hx
      rw [show m + 1 + n = (m + n) + 1 by omega, run_succ hs, ih hx]
    | fault r => simp [run, hs] at hx
    | refused r => simp [run, hs] at hx

/-- `run` is the host's own iteration of the machine. -/
theorem run_eq_core_run (n : Nat) (s : State) : run n s = Host.Core.run Sys2Proof.core n s := by
  induction n generalizing s with
  | zero => rfl
  | succ n ih =>
    cases hs : step s with
    | next t => rw [run_succ hs, ih t]; simp [Host.Core.run, Sys2Proof.core, hs]
    | fault r => simp [run, Host.Core.run, Sys2Proof.core, hs]
    | refused r => simp [run, Host.Core.run, Sys2Proof.core, hs]

end Sys2Proof.Machine
end

