-- ==== Sys2Proof/Tests/Slice0.lean ====
section
/-! SUPPORT. The model's own tests: expected results are the spec's vectors (95_test_vectors.md) and words written out from its encodings (30_encoding.md). Then the witnesses: for each statement with hypotheses, a state that meets them. -/

namespace Sys2Proof.Tests

open Sys2Proof.Machine

/-! ## Helpers -/

/-- The next state, if there is one. -/
def after (o : Host.Outcome State Fault Refusal) : Option State :=
  match o with
  | .next t => some t
  | .fault _ => none
  | .refused _ => none

/-- Two slots, holding the given contexts, right after reset otherwise. -/
def twoSlots (a b : Option Context) : State := { State.reset with slots := [a, b] }

/-- The context of "abc". -/
def abc : Context := ⟨IV, 3#64, [0x61#8, 0x62#8, 0x63#8]⟩

/-- The context of `n` times 'a', for n < 64. -/
def pendingA (n : Nat) : Context := ⟨IV, BitVec.ofNat 64 n, List.replicate n 0x61#8⟩

/-- Slot 0 holds "abc", slot 1 nothing. -/
def sAbc : State := twoSlots (some abc) none

/-- A command on the port. -/
def cmd (i : Instr) : HostAction := .command (encode i)

/-! ## WellFormed: an ill-formed term for each check -/

theorem test_wf_refuses_no_byte : (Instr.absorb 0 []).wf = false := by decide
theorem test_wf_refuses_five_bytes : (Instr.absorb 0 [1#8, 2#8, 3#8, 4#8, 5#8]).wf = false := by decide
theorem test_wf_accepts : (Instr.absorb 15 [1#8]).wf = true ∧ (Instr.absorb 0 [1#8, 2#8, 3#8, 4#8]).wf = true
    ∧ (Instr.init 15).wf = true ∧ (Instr.digest 0).wf = true ∧ (Instr.copy 3 4).wf = true := by decide

/-! ## Decode: words written field by field, DATA RSV NBM1 SRC CTX OPC (R70, R78) -/

/-- INIT 2, its ignored fields set. -/
theorem test_decode_init : decode
    (0b11011110101011011011111011101111#32 ++ 0b00000000000000#14 ++ 0b11#2 ++ 0b0111#4 ++ 0b0010#4 ++ 0b00000001#8)
    = .command (.init 2) := by decide
/-- ABSORB 5 of three bytes 0x61 0x62 0x63, lane 3 and SRC ignored. -/
theorem test_decode_absorb : decode
    (0b11111111011000110110001001100001#32 ++ 0b00000000000000#14 ++ 0b10#2 ++ 0b1111#4 ++ 0b0101#4 ++ 0b00000010#8)
    = .command (.absorb 5 [0x61#8, 0x62#8, 0x63#8]) := by decide
/-- ABSORB 0 of four bytes: NBM1 = 3. -/
theorem test_decode_absorb_four : decode
    (0b00100000011001010110100001010100#32 ++ 0b00000000000000#14 ++ 0b11#2 ++ 0b0000#4 ++ 0b0000#4 ++ 0b00000010#8)
    = .command (.absorb 0 [0x54#8, 0x68#8, 0x65#8, 0x20#8]) := by decide
/-- DIGEST 9. -/
theorem test_decode_digest : decode
    (0b00000000000000000000000000000001#32 ++ 0b00000000000000#14 ++ 0b01#2 ++ 0b0110#4 ++ 0b1001#4 ++ 0b00000011#8)
    = .command (.digest 9) := by decide
/-- COPY 1, 12: CTX is the destination, SRC the source. -/
theorem test_decode_copy : decode
    (0b00000000000000000000000000000000#32 ++ 0b00000000000000#14 ++ 0b00#2 ++ 0b1100#4 ++ 0b0001#4 ++ 0b00000100#8)
    = .command (.copy 1 12) := by decide
/-- V-ERR-3: the opcode is judged before the reserved bits. -/
theorem test_decode_illegal : decode 0x00000000FFFC0005#64 = .illegal .opcode
    ∧ decode 0x0000000080000F01#64 = .illegal .reserved ∧ decode 0x00000000000000FF#64 = .illegal .opcode := by decide
/-- No two rows of the opcode map match one word (R78). -/
theorem test_rows_do_not_overlap :
    opcodeRows.Pairwise fun a b => a.pattern &&& b.mask ≠ b.pattern ∧ a.mask = b.mask := by decide
theorem test_table_word : decodeTableWord 64 0x0000000000001004 = some (.copy 0 1)
    ∧ decodeTableWord 64 0 = none := by decide

/-! ## Functions -/

/-- V-ROL. -/
theorem test_rol32 : rol32 0x12345678#32 5 = 0x468ACF02#32 ∧ rol32 0x80000001#32 1 = 0x00000003#32
    ∧ rol32 0x00000001#32 31 = 0x80000000#32 := by decide
/-- V-F, first row. -/
theorem test_round_functions : [f1, f2, f3, f4, f5].map (fun f => f 0x12345678#32 0x9ABCDEF0#32 0x0F0F0F0F#32) =
    [0x87878787#32, 0x1F3F5F77#32, 0x78787870#32, 0x92B4D6F8#32, 0xE8C8A888#32] := by decide
/-- V-CMP, first row. -/
theorem test_compress : compress IV (List.replicate 64 0x00#8) =
    ⟨0x187E9BC5#32, 0x248B9535#32, 0xD0D6DDCC#32, 0x987C4E30#32, 0xCB45101F#32⟩ := by decide +kernel
/-- V-PAD-7: 63 bytes, two blocks, the last 8 bytes F8 01. -/
theorem test_pad_two_blocks : (pad (List.replicate 63 0x61#8) 63#64).drop 63 =
    0x80#8 :: List.replicate 56 0x00#8 ++ [0xF8#8, 0x01#8, 0x00#8, 0x00#8, 0x00#8, 0x00#8, 0x00#8, 0x00#8] := by
  decide +kernel
/-- V-WRAP-2: CNT = 2^64 − 1. -/
theorem test_finalize_wraps : digestBytes (finalize ⟨IV, 0xFFFFFFFFFFFFFFFF#64, List.replicate 63 0x61#8⟩) =
    [0x32#8, 0x41#8, 0x18#8, 0x90#8, 0x39#8, 0x1b#8, 0x4a#8, 0x01#8, 0xac#8, 0x98#8, 0x87#8, 0x6c#8, 0x3b#8, 0x1b#8,
     0x4f#8, 0x2e#8, 0xad#8, 0x0d#8, 0x46#8, 0xbd#8] := by decide +kernel
/-- V-WRAP-3: the wrap of CNT is silent. -/
theorem test_count_wraps : absorbByte ⟨IV, 0xFFFFFFFFFFFFFFFF#64, List.replicate 63 0x61#8⟩ 0x61#8 =
    ⟨⟨0xD42339F0#32, 0xCE5B9F6F#32, 0x2874A075#32, 0xDF67AAF1#32, 0xC6C1BE1C#32⟩, 0#64, []⟩ := by decide +kernel

/-! ## Commands, one step each -/

/-- V-INIT-3: INIT after reset, through the port, with the ignored fields set. -/
theorem test_init : (after (step (State.reset.withFetchWord 64 0xDEADBEEF00037001))).map
    (fun t => (t.slots, t.status.word)) = some ([some ⟨IV, 0#64, []⟩, none], 0x00000000#32) := by decide
/-- V-ERR-6: INIT 5 with two slots. -/
theorem test_init_out_of_range : (after (step (State.reset.withFetchWord 64 0x501))).map
    (fun t => (t.slots, t.status.word)) = some ([none, none], 0x00000013#32) := by decide
/-- V-ABS-3: the block is compressed after the second of four bytes. -/
theorem test_absorb_across_block : (after (exec (.absorb 0 [0x57#8, 0x58#8, 0x59#8, 0x5A#8])
    (twoSlots (some (pendingA 62)) none))).map (fun t => t.context? 0) = some (some
      ⟨⟨0x4EEDC074#32, 0x554EA473#32, 0xE4815258#32, 0x8A15A8CE#32, 0x6512289D#32⟩, 66#64, [0x59#8, 0x5A#8]⟩) := by
  decide +kernel
/-- V-ERR-10: ABSORB before any INIT. -/
theorem test_absorb_invalid_slot : (after (step (State.reset.withFetchWord 64 0x0000006100000002))).map
    (fun t => (t.slots, t.status.word)) = some ([none, none], 0x00000014#32) := by decide
/-- V-DIG-2: the digest of "abc"; the slot keeps its context. -/
theorem test_digest_abc : (after (exec (.digest 0) sAbc)).map (fun t => (t.dout, t.slots, t.status.word)) = some
    (⟨0xF708B28E#32, 0x7A985DE0#32, 0x8E4A049B#32, 0x87B0C698#32, 0xFC0B5AF1#32⟩, sAbc.slots, 0x00000020#32) := by
  decide +kernel
/-- V-DIG-5: a failing DIGEST keeps DV, DCTX and DOUT. -/
theorem test_digest_invalid_slot : (after (exec (.digest 1)
    { sAbc with status := { last := .ok, sticky := false, dv := true, dctx := 0 }, dout := IV })).map
      (fun t => (t.dout, t.status.word)) = some (IV, 0x00000034#32) := by decide
/-- V-COPY-3: the valid destination is overwritten, the source kept. -/
theorem test_copy : (after (exec (.copy 1 0) (twoSlots (some Context.fresh) (some (pendingA 1))))).map
    (fun t => (t.slots, t.status.word)) = some ([some ⟨IV, 0#64, []⟩, some ⟨IV, 0#64, []⟩], 0x00000000#32) := by decide
/-- V-ERR-9: COPY 5, 1 fails on its range before slot 1's validity. -/
theorem test_copy_range_first : (after (step (State.reset.withFetchWord 64 0x1504))).map
    (fun t => t.status.word) = some 0x00000013#32 := by decide
/-- V-ERR-1: the all-zero word. -/
theorem test_zero_word : (after (step (State.reset.withFetchWord 64 0))).map
    (fun t => (t.slots, t.status.word)) = some ([none, none], 0x00000011#32) := by decide
/-- R83, R84: a line the assembler rejects for a byte operand outside 0..255. -/
theorem test_asm_rejects : assembleLine "ABSORB 0, 256".toList = .error .encoding
    ∧ assembleLine "INIT 16 ; no such slot".toList = .error .slotRange := by decide +kernel
/-- R85, R86: NEW with five bytes is INIT, a four-byte ABSORB and a one-byte ABSORB. -/
theorem test_asm_new : assembleLine "NEW 1, \"abcda\"".toList =
    .ok [0x0000000000000101#64, 0x6463626100030102#64, 0x0000006100000102#64] := by decide +kernel
/-- R81: the disassembly of V-ABS-2's word does not show its ignored lanes. -/
theorem test_disassemble : disassemble 0xFFFFFF6100000002#64 = "ABSORB 0, 0x61".toList := by decide +kernel

/-! ## Witnesses: the hypotheses of each statement can be met, each clause's at the edge of its range -/

theorem witness_DecodeOfEncodeIsIdentity : (Instr.absorb 15 [0xFF#8]).wf = true
    ∧ (Instr.absorb 0 [1#8, 2#8, 3#8, 4#8]).wf = true ∧ (Instr.copy 15 0).wf = true := by decide
theorem witness_IgnoredBitsDoNotMatter : decode 0x0000000000000001#64 = .command (.init 0)
    ∧ 0xDEADBEEF00037001#64 &&& careMask (.init 0) = 0x0000000000000001#64 &&& careMask (.init 0)
    ∧ decode 0x0000006100000002#64 = .command (.absorb 0 [0x61#8])
    ∧ 0xFFFFFF610000F002#64 &&& careMask (.absorb 0 [0x61#8])
        = 0x0000006100000002#64 &&& careMask (.absorb 0 [0x61#8]) := by decide
theorem witness_OpcodeMapSelectsCommands : ∃ row ∈ opcodeRows, row.mnemonic = "COPY" := by decide
theorem witness_IllegalOpcodesFail : decode 0x0000000000000005#64 = .illegal .opcode
    ∧ decode 0x0000000000000000#64 = .illegal .opcode := by decide
theorem witness_ReservedBitsFail : opcField 0x0000000000040001#64 ∈ [0x01#8, 0x02#8, 0x03#8, 0x04#8]
    ∧ rsvField 0x0000000000040001#64 ≠ 0#14 ∧ rsvField 0x0000000080000F01#64 ≠ 0#14 := by decide
theorem witness_RotateLeftMovesBits : ∃ s i : Nat, s ≤ 31 ∧ i < 32 := ⟨31, 31, by decide⟩
theorem witness_RoundFunctionsPerBit : ∃ i : Nat, i < 32 ∧ (f1 0x80000000#32 0#32 0#32).getLsbD i = true :=
  ⟨31, by decide, by decide⟩
theorem witness_StepFormula : (31 : Nat) ≤ 31 := by decide
theorem witness_DecodedCommandsAreWellFormed : decode 0x0063626100020002#64 = .command (.absorb 0 [0x61#8, 0x62#8, 0x63#8]) := by
  decide
theorem witness_InitialValueWords : (1 : SlotIdx).val < State.reset.nctx := by decide
theorem witness_LinesAreIndependent : (List.replicate 80 true ++ List.replicate 80 false).count true = 80
    ∧ (List.replicate 80 true ++ List.replicate 80 false).count false = 80 := by decide +kernel
theorem witness_BlocksCompressInOrder : (List.replicate 64 0x00#8).length = 64 := by decide
theorem witness_PaddingLength : (pad [] 0#64).length = 64 ∧ (pad (List.replicate 55 0#8) 55#64).length = 64
    ∧ (pad (List.replicate 56 0#8) 56#64).length = 128 ∧ (pad (List.replicate 63 0#8) 63#64).length = 128 := by
  decide +kernel
theorem witness_PaddingMachineIsFinalize : sAbc.context? 0 = some abc ∧ abc.buf.length ≤ 55
    ∧ (pendingA 55).buf.length = 55 ∧ (pendingA 56).buf.length = 56 ∧ (pendingA 62).buf.length = 62
    ∧ (pendingA 63).buf.length = 63 := by decide +kernel
theorem witness_InitRule : (1 : SlotIdx).val < sAbc.nctx ∧ sAbc.nctx ≤ (2 : SlotIdx).val
    ∧ (after (exec (.init 1) sAbc)).isSome = true
    ∧ opcField 0x0000000000040001#64 = 0x01#8 ∧ rsvField 0x0000000000040001#64 ≠ 0#14 := by decide
theorem witness_AbsorbRule : (pendingA 63).buf.length = 63 ∧ (pendingA 62).buf.length ≠ 63
    ∧ sAbc.context? 0 = some abc ∧ sAbc.nctx ≤ (2 : SlotIdx).val
    ∧ (1 : SlotIdx).val < sAbc.nctx ∧ sAbc.valid 1 = false := by decide +kernel
theorem witness_AbsorbRule_corners :
    (pendingA 62).Inv ∧ (pendingA 63).Inv ∧ ((pendingA 62).buf ++ [1#8]).length < 64
    ∧ 64 ≤ ((pendingA 62).buf ++ [1#8, 2#8]).length ∧ 64 ≤ ((pendingA 63).buf ++ [1#8, 2#8, 3#8, 4#8]).length
    ∧ opcField 0x40002#64 = 0x02#8 ∧ rsvField 0x40002#64 ≠ 0#14 ∧ ∃ t, exec (.digest 0) sAbc = .next t :=
  ⟨⟨by decide +kernel, by decide +kernel⟩, ⟨by decide +kernel, by decide +kernel⟩, by decide +kernel,
    by decide +kernel, by decide +kernel, by decide, by decide, _, rfl⟩
theorem witness_DigestRule : sAbc.context? 0 = some abc ∧ sAbc.nctx ≤ (2 : SlotIdx).val
    ∧ (1 : SlotIdx).val < sAbc.nctx ∧ sAbc.valid 1 = false
    ∧ opcField 0x40003#64 = 0x03#8 ∧ rsvField 0x40003#64 ≠ 0#14 ∧ (pendingA 0).buf = [] ∧ (pendingA 55).buf.length = 55
    ∧ (pendingA 56).buf.length = 56 ∧ (pendingA 63).buf.length = 63 := by decide +kernel
theorem witness_CopyRule : opcField 0x40004#64 = 0x04#8 ∧ rsvField 0x40004#64 ≠ 0#14 ∧ (1 : SlotIdx).val < sAbc.nctx ∧ sAbc.context? 0 = some abc
    ∧ sAbc.nctx ≤ (2 : SlotIdx).val ∧ sAbc.valid 1 = false ∧ sAbc.valid 0 = true := by decide
theorem witness_CommandFrame : ∃ t, exec (.absorb 0 [0x64#8]) sAbc = .next t ∧ t.status.last = .ok
    ∧ (1 : SlotIdx) ∉ slotsWritten (.absorb 0 [0x64#8]) := ⟨_, rfl, by decide⟩
theorem witness_FailureChangesOnlyStatus : expectedCode 0x00#64 sAbc = .errOpcode
    ∧ expectedCode 0x40001#64 sAbc = .errReserved ∧ expectedCode 0x201#64 sAbc = .errCtx
    ∧ expectedCode 0x2004#64 sAbc = .errCtx ∧ expectedCode 0x103#64 sAbc = .errNoctx
    ∧ expectedCode 0x1104#64 sAbc = .errNoctx := by decide
theorem witness_SuccessKeepsSticky : expectedCode 0x101#64 sAbc = .ok ∧ expectedCode 0x002#64 sAbc = .ok
    ∧ expectedCode 0x003#64 sAbc = .ok ∧ expectedCode 0x104#64 sAbc = .ok := by decide
theorem witness_StickyRecordsFailure :
    (∃ t, run 1 (sAbc.withPending [cmd (.init 5)]) = .next t ∧ t.status.sticky = true)
    ∧ (∀ a ∈ (sAbc.withPending [cmd (.init 5)]).pending.take 1, a ≠ .reset)
    ∧ sAbc.status.sticky = false ∧ sAbc.status.last = .ok
    ∧ (∃ t, step (sAbc.withPending [.reset]) = .next t) :=
  ⟨⟨_, rfl, by decide⟩, by decide, rfl, rfl, ⟨_, rfl⟩⟩
theorem witness_DigestOutputsChangeOnlyByDigest : (∃ t, runWord 0x3#64 sAbc = .next t)
    ∧ decode 0x3#64 = .command (.digest 0) ∧ sAbc.context? 0 = some abc
    ∧ (∃ t, runWord 0x103#64 sAbc = .next t) ∧ decode 0x103#64 = .command (.digest 1) ∧ sAbc.valid 1 = false :=
  ⟨⟨_, rfl⟩, by decide, by decide, ⟨_, rfl⟩, by decide, by decide⟩
theorem witness_DoutHoldsTheDigestOfDctx :
    ((after (run 2 ((State.resetWith 2).withPending [cmd (.init 1), cmd (.digest 1)]))).map
      fun t => (t.status.dv, t.status.dctx)) = some (true, 1) := by decide +kernel
theorem witness_StepRunsTheDecodedCommand :
    (sAbc.withPending [cmd (.digest 0)]).pending = [.command 0x3#64] ∧ decode 0x3#64 = .command (.digest 0)
    ∧ decode 0x0#64 = .illegal .opcode ∧ decode 0x40001#64 = .illegal .reserved ∧ sAbc.pending = [] := by decide
theorem witness_HostReads :
    ((after (run 3 ((twoSlots none none).withPending [.readStatus, .readDout 4, .readStatus]))).map
      fun t => (t.readings.length, t.draws)) = some (3, 1)
    ∧ (let s := { sAbc with status := { last := .ok, sticky := false, dv := true, dctx := 0 } }
       (after (run 3 (s.withPending [.readDout 0, .readStatus, .readDout 0]))).map
         fun t => (t.readings.length, t.draws)) = some (3, 0) := by decide
theorem witness_EngineResetClears : (sAbc.withPending [.reset, .readStatus]).pending = .reset :: [.readStatus] := rfl
theorem witness_EmptySlotsFailUntilTargeted : (1 : SlotIdx).val < 2
    ∧ (∀ a ∈ [cmd (.init 0), cmd (.absorb 1 [1#8]), .reset, cmd (.copy 0 1)].take 4,
        a.replacesSlot 1 = true → a = .reset)
    ∧ (after (run 4 ((State.resetWith 2).withPending
        [cmd (.init 0), cmd (.absorb 1 [1#8]), .reset, cmd (.copy 0 1)]))).isSome = true := by decide
/-- A state that meets the invariant, with a valid slot, a recorded failure and a digest. -/
theorem witness_InvariantKeptByStep :
    ({ sAbc with status := { last := .errCtx, sticky := true, dv := true, dctx := 1 } } : State).Inv := by
  refine ⟨by decide, by decide, ?_, by decide, by decide, by decide⟩
  intro c ctx h
  have hall : ∀ e : SlotIdx, sAbc.context? e = none ∨ sAbc.context? e = some abc := by decide
  rcases hall c with hn | hs
  · exact absurd (hn.symm.trans h) (by simp)
  · cases hs.symm.trans h
    exact ⟨by decide, by decide⟩
theorem witness_BlenIsCntMod64 :
    ((after (run 2 ((State.resetWith 2).withPending [cmd (.init 1), cmd (.absorb 1 [1#8])]))).map
      fun t => (t.context? 1).isSome) = some true := by decide
theorem witness_AbsorbsAreDocUpdate : sAbc.context? 0 = some abc ∧ abc.Inv
    ∧ (∀ b ∈ [[1#8], [2#8, 3#8, 4#8, 5#8]], 1 ≤ b.length ∧ b.length ≤ 4) := ⟨rfl, ⟨by decide, by decide⟩, by decide⟩
/-- Interactions that leave slot 0 its context: its own ABSORB and DIGEST, another slot's commands, reads, errors. -/
def mixed : List HostAction :=
  [cmd (.absorb 0 [1#8]), cmd (.digest 0), cmd (.init 1), .readDout 0, cmd (.copy 1 0), .command 0#64, .readStatus]
theorem witness_ChunkingDoesNotMatter : (0 : SlotIdx).val < sAbc.nctx
    ∧ (∀ a ∈ mixed, a.replacesSlot 0 = false) ∧ bytesFor 0 mixed = [1#8] := by decide
theorem witness_DigestOfAStreamIsRmd160 : (1 : SlotIdx).val < sAbc.nctx
    ∧ (∀ a ∈ [cmd (.absorb 1 [1#8]), cmd (.copy 0 1)], a.replacesSlot 1 = false) := by decide
theorem witness_DigestIsRepeatable : sAbc.context? 0 = some abc
    ∧ (∀ a ∈ [cmd (.init 1), cmd (.copy 1 0), cmd (.absorb 1 [1#8]), .readDout 2], a.writesSlot 0 = false) := by decide
theorem witness_DigestLocksNothing : sAbc.valid 0 = true := by decide
theorem witness_CopiesEvolveIndependently : (1 : SlotIdx) ≠ 0 ∧ (1 : SlotIdx).val < sAbc.nctx
    ∧ sAbc.context? 0 = some (absorbBytes Context.fresh [0x61#8, 0x62#8, 0x63#8])
    ∧ (∀ a ∈ [cmd (.absorb 1 [1#8]), cmd (.absorb 0 [2#8])], a.replacesSlot 1 = false ∧ a.replacesSlot 0 = false) := by
  decide
theorem witness_CommandsReadOnlyTheirSlots :
    sAbc.nctx = (twoSlots (some abc) (some Context.fresh)).nctx
    ∧ (∀ c ∈ slotsTouched (.digest 0), sAbc.context? c = (twoSlots (some abc) (some Context.fresh)).context? c)
    ∧ sAbc ≠ twoSlots (some abc) (some Context.fresh) := by decide
theorem witness_DisjointCommandsCommute :
    (∀ c ∈ slotsTouched (.absorb 0 [1#8]), c ∉ slotsTouched (.init 1))
    ∧ (∃ t, exec (.absorb 0 [1#8]) sAbc = .next t ∧ t.status.last = .ok)
    ∧ (∃ t, exec (.init 1) sAbc = .next t ∧ t.status.last = .ok) := ⟨by decide, ⟨_, rfl, rfl⟩, ⟨_, rfl, rfl⟩⟩
theorem witness_SlotSeesOnlyItsOwnCommands :
    ∀ a ∈ mixed, ∀ cw src, a = .command cw → decode cw ≠ .command (.copy 0 src) := by
  intro a ha cw src he hd
  have hall : ∀ a ∈ mixed, a.replacesSlot 0 = false := by decide
  have hr := hall a ha
  simp [he, HostAction.replacesSlot, hd] at hr
theorem witness_EngineRefinesDocContexts : Represents sAbc [some [0x61#8, 0x62#8, 0x63#8], none] :=
  show sAbc.slots = _ by decide
theorem witness_UpdateExpansion : [[1#8], [2#8, 3#8]].flatten = [1#8, 2#8, 3#8] := by decide
theorem witness_OneshotReadsTheDigest : (0 : SlotIdx).val < sAbc.nctx
    ∧ (sAbc.withPending (oneshotActions 0 [1#8] ++ [.reset])).pending = oneshotActions 0 [1#8] ++ [.reset] := ⟨by decide, rfl⟩
theorem witness_HashStringIsRmd160 : textToBytes ['a', 'b'] = .ok [0x61#8, 0x62#8]
    ∧ textToBytes ['a', Char.ofNat 256] = .error .encoding ∧ textToBytes [Char.ofNat 255] = .ok [0xFF#8] := by decide
/-- Text with characters at the edges of 0..255, and text with one above. -/
theorem witness_TextAndHexConventions : (∀ ch ∈ [Char.ofNat 0, Char.ofNat 255], ch.toNat ≤ 255)
    ∧ (∃ ch ∈ ['a', Char.ofNat 256], 255 < ch.toNat) := by
  have low : (Char.ofNat 0).toNat = 0 ∧ (Char.ofNat 255).toNat = 255 := ⟨rfl, rfl⟩
  have high : (Char.ofNat 256).toNat = 256 := rfl
  simp [low, high]
/-- The first and the last byte of a digest, and byte 3 of word 0 (R191). -/
theorem test_hexdigest_positions :
    let hex := hexdigest ⟨0x8EB208F7#32, 0#32, 0#32, 0#32, 0x1A000000#32⟩
    [hex[0]?, hex[1]?, hex[6]?, hex[7]?, hex[38]?, hex[39]?] =
      [some 'f', some '7', some '8', some 'e', some '1', some 'a'] := by decide +kernel
/-- A DIGEST that sets DV, and a read that keeps it. -/
theorem witness_StepKeepsOrWritesTheDigest :
    ((after (step (sAbc.withPending [cmd (.digest 0)]))).map fun t => (t.status.dv, t.status.dctx)) = some (true, 0)
    ∧ ((after (step { sAbc with status := { last := .ok, sticky := false, dv := true, dctx := 1 },
                                pending := [.readStatus] })).map fun t => (t.status.dv, t.status.dctx))
        = some (true, 1) := by decide +kernel
/-- A successful COPY into an empty slot fills it; a failing one, from an empty slot, leaves it empty. -/
theorem witness_EmptySlotStaysEmptyUntilTargeted : sAbc.context? 1 = none
    ∧ ((after (step (sAbc.withPending [cmd (.copy 1 0)]))).map fun t => t.context? 1) = some (some abc)
    ∧ ((after (step (sAbc.withPending [cmd (.copy 1 1)]))).map fun t => t.context? 1) = some none := by decide

end Sys2Proof.Tests
end

section
/-! SUPPORT. Commands whose checks fail, and what two states that agree on a command's slots have in common. -/

namespace Sys2Proof.Machine

/-! ## Commands whose checks fail (R202, R203) -/

/-- INIT of a slot out of range. -/
theorem exec_init_of_nctx_le {s : State} {c : SlotIdx} (hc : s.nctx ≤ c.val) :
    exec (.init c) s = .next (s.raiseErr .errCtx) := by
  simp [exec, execInit, State.inRange, Nat.not_lt.mpr hc]

/-- ABSORB into a slot that cannot be read. -/
theorem exec_absorb_of_error {s : State} {c : SlotIdx} {code : ResultCode} (hr : s.readSlot c = .error code)
    (bytes : List Byte) : exec (.absorb c bytes) s = .next (s.raiseErr code) := by
  simp [exec, execAbsorb, hr]

/-- DIGEST of a slot that cannot be read. -/
theorem exec_digest_of_error {s : State} {c : SlotIdx} {code : ResultCode} (hr : s.readSlot c = .error code) :
    exec (.digest c) s = .next (s.raiseErr code) := by
  simp [exec, execDigest, hr]

/-- COPY to a slot out of range, whatever its source. -/
theorem exec_copy_of_nctx_le {s : State} {d : SlotIdx} (hd : s.nctx ≤ d.val) (src : SlotIdx) :
    exec (.copy d src) s = .next (s.raiseErr .errCtx) := by
  simp [exec, execCopy, State.inRange, Nat.not_lt.mpr hd]

/-- COPY to a slot in range from one that cannot be read. -/
theorem exec_copy_of_error {s : State} {d src : SlotIdx} {code : ResultCode} (hd : d.val < s.nctx)
    (hr : s.readSlot src = .error code) : exec (.copy d src) s = .next (s.raiseErr code) := by
  simp [exec, execCopy, (s.inRange_iff d).mpr hd, hr]

/-! ## Two states that agree on the slots a command names -/

/-- States that agree on NCTX and on a slot read the same context there, or fail with the same code. -/
theorem State.readSlot_agree {s₁ s₂ : State} {c : SlotIdx} (hn : s₁.nctx = s₂.nctx)
    (hc : s₁.context? c = s₂.context? c) :
    (∃ ctx, s₁.context? c = some ctx ∧ s₂.context? c = some ctx)
    ∨ (∃ code, code ≠ .ok ∧ s₁.readSlot c = .error code ∧ s₂.readSlot c = .error code) := by
  rcases s₁.readSlot_cases c with ⟨ctx, h, _⟩ | ⟨hr, he⟩ | ⟨hr, h, he⟩
  · exact .inl ⟨ctx, h, hc ▸ h⟩
  · exact .inr ⟨_, by decide, he, State.readSlot_of_nctx_le (hn ▸ hr)⟩
  · exact .inr ⟨_, by decide, he, State.readSlot_of_none (hn ▸ hr) (hc ▸ h)⟩

/-- From two states that agree on NCTX and on the slots a command names, the command makes the same change: it raises
one and the same error, writes one context into one slot, or answers one digest (R35). -/
theorem exec_agree {i : Instr} {s₁ s₂ : State} (hn : s₁.nctx = s₂.nctx)
    (ha : ∀ c ∈ slotsTouched i, s₁.context? c = s₂.context? c) :
    (∃ code, code ≠ .ok ∧ exec i s₁ = .next (s₁.raiseErr code) ∧ exec i s₂ = .next (s₂.raiseErr code))
    ∨ (∃ d ctx, slotsWritten i = [d] ∧ d.val < s₁.nctx
        ∧ exec i s₁ = .next (s₁.setSlot d ctx).complete ∧ exec i s₂ = .next (s₂.setSlot d ctx).complete)
    ∨ (∃ c h, i = .digest c
        ∧ exec i s₁ = .next (s₁.writeDigest c h).complete ∧ exec i s₂ = .next (s₂.writeDigest c h).complete) := by
  cases i with
  | init c =>
    by_cases hc : c.val < s₁.nctx
    · exact .inr (.inl ⟨c, _, rfl, hc, exec_init hc, exec_init (hn ▸ hc)⟩)
    · exact .inl ⟨_, by decide, exec_init_of_nctx_le (by omega), exec_init_of_nctx_le (by omega)⟩
  | absorb c bytes =>
    rcases State.readSlot_agree hn (ha c (by simp [slotsTouched])) with ⟨ctx, h₁, h₂⟩ | ⟨code, hok, h₁, h₂⟩
    · exact .inr (.inl ⟨c, _, rfl, State.lt_nctx_of_context? h₁, exec_absorb h₁ bytes, exec_absorb h₂ bytes⟩)
    · exact .inl ⟨code, hok, exec_absorb_of_error h₁ bytes, exec_absorb_of_error h₂ bytes⟩
  | digest c =>
    rcases State.readSlot_agree hn (ha c (by simp [slotsTouched])) with ⟨ctx, h₁, h₂⟩ | ⟨code, hok, h₁, h₂⟩
    · exact .inr (.inr ⟨c, _, rfl, exec_digest h₁, exec_digest h₂⟩)
    · exact .inl ⟨code, hok, exec_digest_of_error h₁, exec_digest_of_error h₂⟩
  | copy d src =>
    by_cases hd : d.val < s₁.nctx
    · rcases State.readSlot_agree hn (ha src (by simp [slotsTouched])) with ⟨ctx, h₁, h₂⟩ | ⟨code, hok, h₁, h₂⟩
      · exact .inr (.inl ⟨d, ctx, rfl, hd, exec_copy hd h₁, exec_copy (hn ▸ hd) h₂⟩)
      · exact .inl ⟨code, hok, exec_copy_of_error hd h₁, exec_copy_of_error (hn ▸ hd) h₂⟩
    · exact .inl ⟨_, by decide, exec_copy_of_nctx_le (by omega) src, exec_copy_of_nctx_le (by omega) src⟩

/-- A command names every slot it writes (R35). -/
theorem slotsWritten_subset_slotsTouched (i : Instr) : slotsWritten i ⊆ slotsTouched i := by
  cases i <;> simp [slotsWritten, slotsTouched]

/-- Settles O49: `exec_agree` says which change both states take, and each of the three changes keeps to the slots
named. -/
theorem commandsReadOnlyTheirSlots : Obligations.CommandsReadOnlyTheirSlots := by
  intro i s₁ s₂ hn ha
  have hw : ∀ c ∈ slotsWritten i, s₁.context? c = s₂.context? c :=
    fun c hc => ha c (slotsWritten_subset_slotsTouched i hc)
  rcases exec_agree hn ha with ⟨code, hok, h₁, h₂⟩ | ⟨d, ctx, hd, hlt, h₁, h₂⟩ | ⟨c, h, rfl, h₁, h₂⟩
  · exact ⟨_, _, h₁, h₂, fun _ _ => rfl, hw, rfl, fun _ _ hl => absurd hl hok⟩
  · refine ⟨_, _, h₁, h₂, fun c hc => ?_, fun c hc => ?_, rfl, fun c hi _ => ?_⟩
    · exact State.context?_setSlot_other (by simpa [hd] using hc) ctx
    · obtain rfl : c = d := by simpa [hd] using hc
      exact (State.context?_setSlot_self hlt ctx).trans (State.context?_setSlot_self (hn ▸ hlt) ctx).symm
    · simp [hi, slotsWritten] at hd
  · exact ⟨_, _, h₁, h₂, fun _ _ => rfl, hw, rfl, fun _ _ _ => rfl⟩

end Sys2Proof.Machine
end

section
/-! SUPPORT. The invariant of the contexts (R24, R26, R27) through commands, steps and runs. -/

namespace Sys2Proof.Machine

/-! ## What every step keeps, every run keeps -/

/-- A run of at least one step that ends in a state makes its first step, and runs on from there. -/
theorem run_succ_cases {s t : State} {n : Nat} (hx : run (n + 1) s = .next t) :
    ∃ u, step s = .next u ∧ run n u = .next t := by
  cases hs : step s with
  | next u => exact ⟨u, rfl, run_succ hs n ▸ hx⟩
  | fault r => cases r
  | refused r => simp [run, hs] at hx

/-- What every step keeps, every run keeps. -/
theorem run_keeps {P : State → Prop} (hstep : ∀ s t, P s → step s = .next t → P t) {n : Nat} {s t : State}
    (hs : P s) (hx : run n s = .next t) : P t := by
  induction n generalizing s with
  | zero => cases hx; exact hs
  | succ n ih =>
    obtain ⟨u, hu, hx⟩ := run_succ_cases hx
    exact ih (hstep s u hs hu) hx

/-! ## The contexts' invariant -/

/-- Every valid slot's context meets its invariant: the clause `contexts` of `State.Inv`, which needs no other clause to
be kept. -/
def State.ContextsInv (s : State) : Prop := ∀ c ctx, s.context? c = some ctx → ctx.Inv

/-- States with the same contexts meet it together. -/
theorem State.ContextsInv.congr {s t : State} (hi : s.ContextsInv) (hst : ∀ c, t.context? c = s.context? c) :
    t.ContextsInv := fun c ctx hc => hi c ctx (hst c ▸ hc)

/-- No slot is valid, so nothing is asked. -/
theorem State.contextsInv_of_none {s : State} (hn : ∀ c, s.context? c = none) : s.ContextsInv := by
  intro c ctx hc
  simp [hn c] at hc

/-- A context that meets its invariant may be written anywhere. -/
theorem State.ContextsInv.setSlot {s : State} (hi : s.ContextsInv) {ctx : Context} (hctx : ctx.Inv) (d : SlotIdx) :
    (s.setSlot d ctx).ContextsInv := by
  intro c ctx' hc
  by_cases hcd : c = d
  · subst hcd
    have hlt : c.val < s.nctx := by simpa using State.lt_nctx_of_context? hc
    rw [State.context?_setSlot_self hlt] at hc
    cases hc
    exact hctx
  · exact hi c ctx' (State.context?_setSlot_other hcd ctx ▸ hc)

/-- Every command keeps it: INIT writes the fresh context, ABSORB and COPY one that comes from a context held. -/
theorem exec_contextsInv {i : Instr} {s t : State} (hi : s.ContextsInv) (hx : exec i s = .next t) :
    t.ContextsInv := by
  rcases exec_cases hx with ⟨code, _, rfl⟩ | ⟨c, _, _, rfl⟩ | ⟨c, bytes, ctx, _, hc, rfl⟩ | ⟨c, ctx, _, _, rfl⟩
    | ⟨d, src, ctx, _, _, hc, rfl⟩
  · exact hi.congr fun _ => rfl
  · exact (hi.setSlot Context.fresh_inv c).congr fun _ => rfl
  · exact (hi.setSlot (absorbBytes_inv (hi c ctx hc) bytes) c).congr fun _ => rfl
  · exact hi.congr fun _ => rfl
  · exact (hi.setSlot (hi src ctx hc) d).congr fun _ => rfl

/-- Every command word keeps it. -/
theorem runWord_contextsInv {cw : U64} {s t : State} (hi : s.ContextsInv) (hx : runWord cw s = .next t) :
    t.ContextsInv := by
  rcases runWord_cases hx with ⟨e, _, rfl⟩ | ⟨i, _, hx⟩
  · exact hi.congr fun _ => rfl
  · exact exec_contextsInv hi hx

/-- Every step keeps it: only a command word and the reset event touch a slot. -/
theorem step_contextsInv {s t : State} (hi : s.ContextsInv) (hx : step s = .next t) : t.ContextsInv := by
  rcases step_cases hx with ⟨_, rfl⟩ | ⟨cw, rest, _, hw⟩ | ⟨rest, _, rfl⟩ | ⟨w, rest, _, rfl⟩ | ⟨rest, _, rfl⟩
  · exact hi
  · exact runWord_contextsInv (s := s.withPending rest) (hi.congr fun _ => rfl) hw
  · exact hi.congr fun _ => rfl
  · exact hi.congr fun c => by simp
  · exact State.contextsInv_of_none fun c => by simp

/-- Settles O42: no slot is valid at reset, and every step keeps the contexts' invariant. -/
theorem blenIsCntMod64 : Obligations.BlenIsCntMod64 := by
  intro N n acts t c ctx hrun hc
  have hreset : ((State.resetWith N).withPending acts).ContextsInv := State.contextsInv_of_none fun c => by simp
  have ht : t.ContextsInv := run_keeps (fun _ _ => step_contextsInv) hreset hrun
  obtain ⟨hlt, hmod⟩ := ht c ctx hc
  exact ⟨hmod, by omega⟩

end Sys2Proof.Machine
end

section
/-! SUPPORT. Commands on different slots (R35, R62), and the digest as bytes (R54). -/

namespace Sys2Proof.Machine

/-! ## What a command leaves as it was (R35) -/

/-- No command changes NCTX. -/
theorem exec_nctx {i : Instr} {s t : State} (hx : exec i s = .next t) : t.nctx = s.nctx := by
  rcases exec_cases hx with ⟨_, _, rfl⟩ | ⟨_, _, _, rfl⟩ | ⟨_, _, _, _, _, rfl⟩ | ⟨_, _, _, _, rfl⟩
    | ⟨_, _, _, _, _, _, rfl⟩
  all_goals simp

/-- A command leaves every slot it does not write as it was. -/
theorem exec_context?_of_not_mem_slotsWritten {i : Instr} {s t : State} {c : SlotIdx} (hx : exec i s = .next t)
    (hc : c ∉ slotsWritten i) : t.context? c = s.context? c := by
  obtain ⟨u, _, hu, _, hkeeps, _⟩ := commandsReadOnlyTheirSlots i s s rfl fun _ _ => rfl
  cases hx.symm.trans hu
  exact hkeeps c hc

/-! ## Successful commands on different slots (R62) -/

/-- A command that succeeds, run as well from a second state that agrees on NCTX and on the slots it names: it writes
one context into one slot, or answers one digest, in both. -/
theorem exec_agree_of_ok {i : Instr} {s₁ s₂ t₁ : State} (hn : s₁.nctx = s₂.nctx)
    (ha : ∀ c ∈ slotsTouched i, s₁.context? c = s₂.context? c) (hx : exec i s₁ = .next t₁)
    (hok : t₁.status.last = .ok) :
    (∃ d ctx, slotsWritten i = [d] ∧ t₁ = (s₁.setSlot d ctx).complete
        ∧ exec i s₂ = .next (s₂.setSlot d ctx).complete)
    ∨ (∃ c h, i = .digest c ∧ t₁ = (s₁.writeDigest c h).complete
        ∧ exec i s₂ = .next (s₂.writeDigest c h).complete) := by
  rcases exec_agree hn ha with ⟨code, hcode, h₁, _⟩ | ⟨d, ctx, hd, _, h₁, h₂⟩ | ⟨c, h, hi, h₁, h₂⟩ <;>
    cases hx.symm.trans h₁
  · exact absurd hok hcode
  · exact .inl ⟨d, ctx, hd, rfl, h₂⟩
  · exact .inr ⟨c, h, hi, rfl, h₂⟩

/-- A command that succeeds does the same after any command that names none of its slots. -/
theorem exec_after_disjoint_of_ok {i j : Instr} {s ti tj : State}
    (hdisj : ∀ c ∈ slotsTouched i, c ∉ slotsTouched j) (hi : exec i s = .next ti) (hok : ti.status.last = .ok)
    (hj : exec j s = .next tj) :
    (∃ d ctx, slotsWritten i = [d] ∧ ti = (s.setSlot d ctx).complete
        ∧ exec i tj = .next (tj.setSlot d ctx).complete)
    ∨ (∃ c h, i = .digest c ∧ ti = (s.writeDigest c h).complete
        ∧ exec i tj = .next (tj.writeDigest c h).complete) := by
  have hagree : ∀ c ∈ slotsTouched i, s.context? c = tj.context? c := fun c hc =>
    (exec_context?_of_not_mem_slotsWritten hj fun hw =>
      hdisj c hc (slotsWritten_subset_slotsTouched j hw)).symm
  exact exec_agree_of_ok (exec_nctx hj).symm hagree hi hok

/-- Writes to different slots, each completing its command, commute. -/
theorem State.complete_setSlot_comm (s : State) {d e : SlotIdx} (hde : d ≠ e) (x y : Context) :
    ((s.setSlot d x).complete.setSlot e y).complete = ((s.setSlot e y).complete.setSlot d x).complete := by
  simp [State.complete, State.setSlot, List.set_comm _ _ (Fin.val_ne_of_ne hde)]

/-- A command that writes a slot is no DIGEST. -/
theorem ne_digest_of_slotsWritten {i : Instr} {d : SlotIdx} (hd : slotsWritten i = [d]) (c : SlotIdx) :
    i ≠ .digest c := by
  rintro rfl
  simp [slotsWritten] at hd

/-- Settles O50: each command does the same after the other (`exec_after_disjoint_of_ok`), and the writes of the two
fall on different slots. -/
theorem disjointCommandsCommute : Obligations.DisjointCommandsCommute := by
  intro i j s ti tj hdisj hi hiok hj hjok
  rcases exec_after_disjoint_of_ok hdisj hi hiok hj with ⟨d, x, hd, rfl, hi'⟩ | ⟨d, x, rfl, rfl, hi'⟩ <;>
    rcases exec_after_disjoint_of_ok (fun c hcj hci => hdisj c hci hcj) hj hjok hi with
      ⟨e, y, he, rfl, hj'⟩ | ⟨e, y, rfl, rfl, hj'⟩ <;>
    refine ⟨_, _, hj', hi', ?_⟩
  · have hde : d ≠ e := by
      rintro rfl
      exact hdisj d (slotsWritten_subset_slotsTouched i (by simp [hd]))
        (slotsWritten_subset_slotsTouched j (by simp [he]))
    have hcomm := s.complete_setSlot_comm hde x y
    exact ⟨congrArg State.slots hcomm, rfl, rfl, fun _ _ => hcomm,
      fun c hc => absurd hc (ne_digest_of_slotsWritten he c)⟩
  · exact ⟨rfl, rfl, rfl, fun _ hne => absurd rfl (hne e), fun c hc => by cases hc; exact ⟨rfl, rfl⟩⟩
  · exact ⟨rfl, rfl, rfl, fun hne _ => absurd rfl (hne d),
      fun c hc => absurd hc (ne_digest_of_slotsWritten he c)⟩
  · exact ⟨rfl, rfl, rfl, fun hne _ => absurd rfl (hne d), fun c hc => by cases hc; exact ⟨rfl, rfl⟩⟩

/-! ## The digest as bytes (R54) -/

@[simp] theorem length_le32bytes (w : Word) : (le32bytes w).length = 4 := by simp [le32bytes]

/-- Byte `k` of a word, the least significant first (R11). -/
theorem getElem?_le32bytes (w : Word) (k : Fin 4) : (le32bytes w)[k.val]? = some (w.extractLsb' (8 * k.val) 8) := by
  simp [le32bytes]

/-- The digest bytes are those of its words, in word order. -/
theorem digestBytes_eq_flatMap (h : HashState) :
    digestBytes h = (List.finRange 5).flatMap fun w => le32bytes (h.get w) := by
  simp [digestBytes, HashState.get, List.finRange_succ]

/-- In a list of pieces of `n` elements each, position `n * i + k` is place `k` of piece `i`. -/
theorem getElem?_flatMap_of_length {α β : Type} {f : α → List β} {n : Nat} (hf : ∀ a, (f a).length = n) {k : Nat}
    (hk : k < n) (l : List α) (i : Nat) : (l.flatMap f)[n * i + k]? = l[i]?.bind fun a => (f a)[k]? := by
  induction l generalizing i with
  | nil => simp
  | cons a l ih =>
    rw [List.flatMap_cons]
    cases i with
    | zero => simp [List.getElem?_append_left, hf, hk]
    | succ i =>
      have hlt : (f a).length ≤ n * (i + 1) + k := by rw [hf, Nat.mul_succ]; omega
      have hsub : n * (i + 1) + k - (f a).length = n * i + k := by rw [hf, Nat.mul_succ]; omega
      rw [List.getElem?_append_right hlt, hsub, ih, List.getElem?_cons_succ]

/-- Settles O57: the digest is five pieces of four bytes, so its byte `4w + k` is byte `k` of word `w`. -/
theorem digestByteOrder : Obligations.DigestByteOrder := by
  intro h
  refine ⟨by simp [digestBytes], digestBytes_eq_flatMap h, fun w k => ?_⟩
  have hw : (List.finRange 5)[w.val]? = some w := by simp
  rw [digestBytes_eq_flatMap, getElem?_flatMap_of_length (fun _ => length_le32bytes _) k.isLt, hw]
  exact getElem?_le32bytes (h.get w) k

end Sys2Proof.Machine
end

section
/-! SUPPORT. The decoder, verdict by verdict, and command words field by field (R70 to R82). -/

namespace Sys2Proof

/-! ## The verdicts (R77) -/

/-- The opcodes that select no command (R79). -/
theorem byOpcode_eq_none_iff (cw : U64) :
    byOpcode cw = none ↔ opcField cw ∉ [0x01#8, 0x02#8, 0x03#8, 0x04#8] := by
  unfold byOpcode
  split_ifs <;> simp [*]

/-- The opcode alone decides an ERR_OPCODE verdict. -/
theorem decode_eq_illegal_opcode_iff (cw : U64) : decode cw = .illegal .opcode ↔ byOpcode cw = none := by
  unfold decode
  cases byOpcode cw with
  | none => simp
  | some i => by_cases hr : rsvField cw = 0#14 <;> simp [hr]

/-- A legal opcode with a reserved bit set gets the ERR_RESERVED verdict (R80). -/
theorem decode_of_rsvField_ne_zero {cw : U64} (hop : byOpcode cw ≠ none) (hr : rsvField cw ≠ 0#14) :
    decode cw = .illegal .reserved := by
  obtain ⟨i, hi⟩ := Option.ne_none_iff_exists'.mp hop
  simp [decode, hi, hr]

/-- A word is the command its opcode selects when its reserved bits are zero. -/
theorem decode_eq_command_iff (cw : U64) (i : Instr) :
    decode cw = .command i ↔ byOpcode cw = some i ∧ rsvField cw = 0#14 := by
  unfold decode
  cases byOpcode cw with
  | none => simp
  | some j => by_cases hr : rsvField cw = 0#14 <;> simp [hr]

/-! ## The opcode's command (R78) -/

theorem byOpcode_eq_init_iff (cw : U64) (c : SlotIdx) :
    byOpcode cw = some (.init c) ↔ opcField cw = 0x01#8 ∧ ctxField cw = c := by
  unfold byOpcode
  split_ifs <;> simp [*]

theorem byOpcode_eq_absorb_iff (cw : U64) (c : SlotIdx) (bytes : List Byte) :
    byOpcode cw = some (.absorb c bytes) ↔ opcField cw = 0x02#8 ∧ ctxField cw = c ∧ lanes cw = bytes := by
  unfold byOpcode
  split_ifs <;> simp [*]

theorem byOpcode_eq_digest_iff (cw : U64) (c : SlotIdx) :
    byOpcode cw = some (.digest c) ↔ opcField cw = 0x03#8 ∧ ctxField cw = c := by
  unfold byOpcode
  split_ifs <;> simp [*]

theorem byOpcode_eq_copy_iff (cw : U64) (d src : SlotIdx) :
    byOpcode cw = some (.copy d src) ↔ opcField cw = 0x04#8 ∧ ctxField cw = d ∧ srcField cw = src := by
  unfold byOpcode
  split_ifs <;> simp [*]

/-! ## Words from their fields (R70) -/

/-- A stretch of bits is two pieces in a row exactly when each piece stands in its place. -/
theorem extractLsb'_eq_append_iff {w m n : Nat} (v : BitVec w) (a : Nat) (x : BitVec m) (y : BitVec n) :
    v.extractLsb' a (m + n) = x ++ y ↔ v.extractLsb' (a + n) m = x ∧ v.extractLsb' a n = y := by
  rw [← BitVec.extractLsb'_append_extractLsb'_eq_extractLsb' rfl]
  constructor
  · intro h
    have hhigh := congrArg (BitVec.extractLsb' n m) h
    have hlow := congrArg (BitVec.extractLsb' 0 n) h
    simp only [BitVec.extractLsb'_append_eq_left, BitVec.extractLsb'_append_eq_right] at hhigh hlow
    exact ⟨hhigh, hlow⟩
  · rintro ⟨rfl, rfl⟩
    rfl

theorem ctxField_eq_iff (v : U64) (c : SlotIdx) : ctxField v = c ↔ v.extractLsb' 8 4 = BitVec.ofNat 4 c.val := by
  simp [ctxField, Fin.ext_iff, ← BitVec.toNat_inj]

theorem srcField_eq_iff (v : U64) (c : SlotIdx) : srcField v = c ↔ v.extractLsb' 12 4 = BitVec.ofNat 4 c.val := by
  simp [srcField, Fin.ext_iff, ← BitVec.toNat_inj]

/-- A word is the one packed from six values exactly when these are its fields. -/
theorem eq_packWord_iff (v : U64) (data : BitVec 32) (rsv : BitVec 14) (nbm1 : BitVec 2) (src ctx : SlotIdx)
    (opc : BitVec 8) :
    v = packWord data rsv nbm1 src ctx opc ↔ v.extractLsb' 32 32 = data ∧ rsvField v = rsv ∧ nbm1Field v = nbm1
      ∧ srcField v = src ∧ ctxField v = ctx ∧ opcField v = opc := by
  have hwhole : v.extractLsb' 0 (32 + 14 + 2 + 4 + 4 + 8) = v := BitVec.extractLsb'_eq_self
  refine (Eq.congr_left hwhole).symm.trans ?_
  rw [ctxField_eq_iff, srcField_eq_iff]
  simp only [packWord, extractLsb'_eq_append_iff, and_assoc]
  rfl

/-- The DATA field carries the bytes exactly when each lane does, the lanes above them being zero (R76). -/
theorem eq_dataField_iff (v : U64) (bytes : List Byte) :
    v.extractLsb' 32 32 = dataField bytes ↔ ∀ k < 4, lane v k = bytes.getD k 0#8 := by
  have hsplit : v.extractLsb' 32 (8 + 8 + 8 + 8) = dataField bytes ↔
      ((lane v 3 = bytes.getD 3 0#8 ∧ lane v 2 = bytes.getD 2 0#8) ∧ lane v 1 = bytes.getD 1 0#8)
        ∧ lane v 0 = bytes.getD 0 0#8 := by
    simp only [dataField, extractLsb'_eq_append_iff]
    rfl
  refine hsplit.trans ⟨fun ⟨⟨⟨h3, h2⟩, h1⟩, h0⟩ k hk => ?_, fun h => ?_⟩
  · interval_cases k <;> assumption
  · exact ⟨⟨⟨h 3 (by decide), h 2 (by decide)⟩, h 1 (by decide)⟩, h 0 (by decide)⟩

theorem length_lanes (cw : U64) : (lanes cw).length = (nbm1Field cw).toNat + 1 := by simp [lanes]

/-- The ABSORBs a word can carry (R70, R74). -/
theorem wf_absorb_iff (c : SlotIdx) (bytes : List Byte) :
    (Instr.absorb c bytes).wf = true ↔ 1 ≤ bytes.length ∧ bytes.length ≤ 4 := by
  simp [Instr.wf, Instr.hasByte, Instr.fitsLanes]

/-- A word's message bytes are the given ones when NBM1 gives their number and the lanes hold them (R74, R76). -/
theorem lanes_eq_iff {bytes : List Byte} (hl : 1 ≤ bytes.length ∧ bytes.length ≤ 4) (cw : U64) :
    lanes cw = bytes ↔ nbm1Field cw = BitVec.ofNat 2 (bytes.length - 1)
      ∧ ∀ k < bytes.length, lane cw k = bytes.getD k 0#8 := by
  have hlen : nbm1Field cw = BitVec.ofNat 2 (bytes.length - 1) ↔ (lanes cw).length = bytes.length := by
    rw [length_lanes, ← BitVec.toNat_inj, BitVec.toNat_ofNat, Nat.mod_eq_of_lt (by omega)]
    omega
  rw [hlen, List.ext_getElem_iff]
  refine and_congr_right fun hlen => ⟨fun h k hk => ?_, fun h k hk hk' => ?_⟩
  · simpa [lanes, hk] using h k (hlen ▸ hk) hk
  · simpa [lanes, hk'] using h k hk'

/-! ## Masked words (R81) -/

/-- A masked word is a packed one field by field. -/
theorem and_eq_packWord_iff (v m : U64) (data : BitVec 32) (rsv : BitVec 14) (nbm1 : BitVec 2) (src ctx : SlotIdx)
    (opc : BitVec 8) :
    v &&& m = packWord data rsv nbm1 src ctx opc ↔ (v &&& m).extractLsb' 32 32 = data
      ∧ rsvField v &&& rsvField m = rsv ∧ nbm1Field v &&& nbm1Field m = nbm1
      ∧ srcField v &&& srcField m = src ∧ ctxField v &&& ctxField m = ctx ∧ opcField v &&& opcField m = opc := by
  have hrsv : rsvField (v &&& m) = rsvField v &&& rsvField m := BitVec.extractLsb'_and
  have hnbm1 : nbm1Field (v &&& m) = nbm1Field v &&& nbm1Field m := BitVec.extractLsb'_and
  have hsrc : srcField (v &&& m) = srcField v &&& srcField m := by
    simp [srcField, Fin.ext_iff, BitVec.extractLsb'_and]
  have hctx : ctxField (v &&& m) = ctxField v &&& ctxField m := by
    simp [ctxField, Fin.ext_iff, BitVec.extractLsb'_and]
  have hopc : opcField (v &&& m) = opcField v &&& opcField m := BitVec.extractLsb'_and
  rw [eq_packWord_iff, hrsv, hnbm1, hsrc, hctx, hopc]

/-- An ABSORB reads OPC, CTX, NBM1, RSV and one lane for each of its bytes. -/
theorem careMask_absorb {bytes : List Byte} (hl : 1 ≤ bytes.length ∧ bytes.length ≤ 4) (c : SlotIdx) :
    careMask (.absorb c bytes) = packWord (dataField (List.replicate bytes.length (BitVec.allOnes 8)))
      (BitVec.allOnes 14) (BitVec.allOnes 2) 0 15 (BitVec.allOnes 8) := by
  obtain ⟨h1, h4⟩ := hl
  simp only [careMask]
  generalize bytes.length = n at h1 h4
  interval_cases n <;> decide

/-- The lanes an ABSORB's mask keeps hold its bytes. -/
theorem data_and_careMask_absorb_iff {bytes : List Byte} (hl : 1 ≤ bytes.length ∧ bytes.length ≤ 4) (v : U64)
    (c : SlotIdx) :
    (v &&& careMask (.absorb c bytes)).extractLsb' 32 32 = dataField bytes
      ↔ ∀ k < bytes.length, lane v k = bytes.getD k 0#8 := by
  obtain ⟨hdata, _⟩ := (eq_packWord_iff ..).mp (careMask_absorb hl c)
  have hmask : ∀ k < 4, lane (v &&& careMask (.absorb c bytes)) k = if k < bytes.length then lane v k else 0#8 := by
    intro k hk
    have hand : lane (v &&& careMask (.absorb c bytes)) k = lane v k &&& lane (careMask (.absorb c bytes)) k :=
      BitVec.extractLsb'_and
    rw [hand, (eq_dataField_iff _ _).mp hdata k hk, List.getD_eq_getElem?_getD, List.getElem?_replicate]
    split_ifs
    · exact BitVec.and_allOnes
    · exact BitVec.and_zero
  rw [eq_dataField_iff]
  refine ⟨fun h k hk => ?_, fun h k hk => ?_⟩
  · have hk4 : k < 4 := by omega
    rw [← h k hk4, hmask k hk4, if_pos hk]
  · rw [hmask k hk]
    split_ifs with hkl
    · exact h k hkl
    · simp [Nat.not_lt.mp hkl]

/-- The mask of a slot field the command reads. -/
theorem slotIdx_and_fifteen (c : SlotIdx) : c &&& 15 = c := by decide +revert

/-- The mask of a slot field the command ignores. -/
theorem slotIdx_and_zero (c : SlotIdx) : c &&& 0 = 0 := by decide +revert

/-- INIT and DIGEST read OPC, CTX and RSV. -/
theorem and_eq_packWord_slot_iff (v : U64) (c : SlotIdx) (opc : BitVec 8) :
    v &&& 0x00000000FFFC0FFF#64 = packWord 0#32 0#14 0#2 0 c opc
      ↔ opcField v = opc ∧ ctxField v = c ∧ rsvField v = 0#14 := by
  have hm : 0x00000000FFFC0FFF#64 = packWord 0#32 (BitVec.allOnes 14) 0#2 0 15 (BitVec.allOnes 8) := by decide
  obtain ⟨hdata, hrsv, hnbm1, hsrc, hctx, hopc⟩ := (eq_packWord_iff ..).mp hm
  rw [and_eq_packWord_iff, BitVec.extractLsb'_and, hdata, hrsv, hnbm1, hsrc, hctx, hopc]
  simp only [BitVec.and_zero, BitVec.and_allOnes, slotIdx_and_fifteen, slotIdx_and_zero, true_and]
  tauto

/-- ABSORB reads its message bytes too, and with them NBM1. -/
theorem and_careMask_absorb_eq_encode_iff {bytes : List Byte} (hl : 1 ≤ bytes.length ∧ bytes.length ≤ 4) (v : U64)
    (c : SlotIdx) :
    v &&& careMask (.absorb c bytes) = encode (.absorb c bytes)
      ↔ opcField v = 0x02#8 ∧ ctxField v = c ∧ lanes v = bytes ∧ rsvField v = 0#14 := by
  obtain ⟨_, hrsv, hnbm1, hsrc, hctx, hopc⟩ := (eq_packWord_iff ..).mp (careMask_absorb hl c)
  rw [encode, and_eq_packWord_iff, data_and_careMask_absorb_iff hl, hrsv, hnbm1, hsrc, hctx, hopc, lanes_eq_iff hl]
  simp only [BitVec.and_allOnes, slotIdx_and_fifteen, slotIdx_and_zero, true_and]
  tauto

/-- COPY reads SRC too. -/
theorem and_careMask_copy_eq_encode_iff (v : U64) (d src : SlotIdx) :
    v &&& careMask (.copy d src) = encode (.copy d src)
      ↔ opcField v = 0x04#8 ∧ ctxField v = d ∧ srcField v = src ∧ rsvField v = 0#14 := by
  have hm : careMask (.copy d src) = packWord 0#32 (BitVec.allOnes 14) 0#2 15 15 (BitVec.allOnes 8) := by
    rw [careMask]
    decide
  obtain ⟨hdata, hrsv, hnbm1, hsrc, hctx, hopc⟩ := (eq_packWord_iff ..).mp hm
  rw [encode, and_eq_packWord_iff, BitVec.extractLsb'_and, hdata, hrsv, hnbm1, hsrc, hctx, hopc]
  simp only [BitVec.and_zero, BitVec.and_allOnes, slotIdx_and_fifteen, true_and]
  tauto

/-- What a word decodes to is well formed: an ABSORB has NBM1 + 1 bytes (R74). -/
theorem wf_of_decode {cw : U64} {i : Instr} (hd : decode cw = .command i) : i.wf = true := by
  cases i with
  | init c => rfl
  | absorb c bytes =>
    obtain ⟨_, _, rfl⟩ := (byOpcode_eq_absorb_iff ..).mp ((decode_eq_command_iff ..).mp hd).1
    rw [wf_absorb_iff, length_lanes]
    omega
  | digest c => rfl
  | copy d src => rfl

/-- A word decodes to a well-formed command exactly when the bits the command reads are those of its canonical word
(R78, R81). -/
theorem decode_eq_command_iff_and_careMask {i : Instr} (hwf : i.wf = true) (v : U64) :
    decode v = .command i ↔ v &&& careMask i = encode i := by
  rw [decode_eq_command_iff]
  cases i with
  | init c => rw [byOpcode_eq_init_iff, careMask, encode, and_eq_packWord_slot_iff, and_assoc]
  | absorb c bytes =>
    rw [byOpcode_eq_absorb_iff, and_careMask_absorb_eq_encode_iff ((wf_absorb_iff c bytes).mp hwf), and_assoc,
      and_assoc]
  | digest c => rw [byOpcode_eq_digest_iff, careMask, encode, and_eq_packWord_slot_iff, and_assoc]
  | copy d src => rw [byOpcode_eq_copy_iff, and_careMask_copy_eq_encode_iff, and_assoc, and_assoc]

end Sys2Proof
end

section
/-! SUPPORT. The encoding's obligations: ignored bits (R81), illegal words (R79, R80), the examples (R88). -/

namespace Sys2Proof.Machine

/-- An illegal word writes LAST and STICKY and changes nothing else (R203). -/
theorem runWord_of_illegal {cw : U64} {e : Illegal} (hd : decode cw = .illegal e) (s : State) :
    runWord cw s = .next (s.raiseErr (illegalCode e)) := by
  simp [runWord, hd]

/-- Words with the same verdict run the same. -/
theorem runWord_congr {v w : U64} (hd : decode v = decode w) (s : State) : runWord v s = runWord w s := by
  simp [runWord, hd]

/-- Settles O3: a word decodes to a command exactly when its bits under the mask are the command's canonical word. -/
theorem ignoredBitsDoNotMatter : Obligations.IgnoredBitsDoNotMatter := by
  intro w1 w2 i h1
  have hwf : i.wf = true := wf_of_decode h1
  have henc : w1 &&& careMask i = encode i := (decode_eq_command_iff_and_careMask hwf w1).mp h1
  refine ⟨fun hagree => ?_, henc.symm⟩
  have h2 : decode w2 = .command i := (decode_eq_command_iff_and_careMask hwf w2).mpr (hagree.trans henc)
  exact ⟨h2, runWord_congr (h2.trans h1.symm), by simp [disassemble, h2]⟩

/-- The illegal opcodes are 0x00 and all from 0x05 on (R79). -/
theorem decode_eq_illegal_opcode_iff_toNat (cw : U64) :
    decode cw = .illegal .opcode ↔ (opcField cw).toNat = 0 ∨ 5 ≤ (opcField cw).toNat := by
  rw [decode_eq_illegal_opcode_iff, byOpcode_eq_none_iff]
  simp only [List.mem_cons, List.not_mem_nil, or_false, ← BitVec.toNat_inj, BitVec.toNat_ofNat]
  omega

/-- A word below 256 is its own opcode. -/
theorem toNat_opcField_ofNat {n : Nat} (hn : n < 256) : (opcField (BitVec.ofNat 64 n)).toNat = n := by
  simp [opcField]
  omega

/-- Settles O6: the verdict depends on the opcode's number alone, which 0 and 5 to 255 make illegal. -/
theorem illegalOpcodesFail : Obligations.IllegalOpcodesFail := by
  refine ⟨fun cw => ?_, ?_, by decide, rfl, fun cw s hd => runWord_of_illegal hd s⟩
  · rw [decode_eq_illegal_opcode_iff_toNat, ← BitVec.toNat_inj]
    rfl
  · have hcount : ((List.range 256).filter fun v => decode (BitVec.ofNat 64 v) = .illegal .opcode)
        = (List.range 256).filter fun v => v = 0 ∨ 5 ≤ v := by
      refine List.filter_congr fun v hv => decide_eq_decide.mpr ?_
      rw [decode_eq_illegal_opcode_iff_toNat, toNat_opcField_ofNat (List.mem_range.mp hv)]
    rw [hcount]
    decide +kernel

/-- Settles O7: the opcode selects a command, and the reserved bits are judged next. -/
theorem reservedBitsFail : Obligations.ReservedBitsFail := by
  refine ⟨rfl, fun cw s hop hr => ?_⟩
  have hd : decode cw = .illegal .reserved :=
    decode_of_rsvField_ne_zero (fun hnone => (byOpcode_eq_none_iff cw).mp hnone hop) hr
  exact ⟨hd, runWord_of_illegal hd s⟩

/-- Settles O1: each line and each word is one evaluation of the assembler or of the decoder. -/
theorem encodingExamplesAgree : Obligations.EncodingExamplesAgree := by
  unfold Obligations.EncodingExamplesAgree
  decide +kernel

end Sys2Proof.Machine
end

section
/-! SUPPORT. UPDATE's expansion: the byte string in pieces of four (R85). -/

namespace Sys2Proof.Machine

/-- Absorbing pieces one after another is absorbing their concatenation (R175). -/
theorem foldl_absorbBytes (chunks : List (List Byte)) (ctx : Context) :
    chunks.foldl absorbBytes ctx = absorbBytes ctx chunks.flatten :=
  List.foldl_flatten.symm

/-- The first `n` pieces of four hold the first `4n` bytes. -/
theorem flatten_map_drop_take (s : List Byte) (n : Nat) :
    ((List.range n).map fun j => (s.drop (4 * j)).take 4).flatten = s.take (4 * n) := by
  induction n with
  | zero => simp
  | succ n ih => simp [List.range_succ, ih, Nat.mul_succ, List.take_add]

theorem length_updateChunks (s : List Byte) : (updateChunks s).length = (s.length + 3) / 4 := by
  simp [updateChunks]

/-- The pieces concatenate to the byte string. -/
theorem flatten_updateChunks (s : List Byte) : (updateChunks s).flatten = s := by
  rw [updateChunks, flatten_map_drop_take, List.take_of_length_le (by omega)]

/-- Piece `j` is the four bytes from position `4j`, or as many as there are. -/
theorem getElem_updateChunks (s : List Byte) (j : Nat) (h : j < (updateChunks s).length) :
    (updateChunks s)[j] = (s.drop (4 * j)).take 4 := by
  simp [updateChunks]

theorem length_getElem_updateChunks (s : List Byte) (j : Nat) (h : j < (updateChunks s).length) :
    (updateChunks s)[j].length = min 4 (s.length - 4 * j) := by
  simp [getElem_updateChunks]

/-- Settles O53: piece `j` has `min 4 (len - 4j)` bytes, and the effect is that of the concatenation. -/
theorem updateExpansion : Obligations.UpdateExpansion := by
  intro c s
  have hlen := length_updateChunks s
  refine ⟨rfl, flatten_updateChunks s, hlen, fun j hj => ?_, fun b hb => ?_, fun b hb => ?_, rfl,
    fun chunks ctx hs => ?_⟩
  · rw [getElem_updateChunks, List.drop_take, List.take_eq_take_iff, List.length_drop]
    omega
  · obtain ⟨j, hj, rfl⟩ := List.mem_iff_getElem.mp hb
    rw [List.length_dropLast] at hj
    rw [List.getElem_dropLast, length_getElem_updateChunks]
    omega
  · obtain ⟨j, hj, rfl⟩ := List.mem_iff_getElem.mp hb
    rw [length_getElem_updateChunks]
    omega
  · rw [foldl_absorbBytes, foldl_absorbBytes, hs, flatten_updateChunks]

end Sys2Proof.Machine
end

section
/-! SUPPORT. The Boolean functions bit by bit (R110), and their order in the two lines (R111). -/

namespace Sys2Proof.Machine

section
variable (x y z : Word) {i : Nat}

theorem getLsbD_f1 : (f1 x y z).getLsbD i = (x.getLsbD i ^^ y.getLsbD i ^^ z.getLsbD i) := by
  simp [f1]

/-- f2 selects `y` where `x` has a 1, and `z` elsewhere. -/
theorem getLsbD_f2 (hi : i < 32) :
    (f2 x y z).getLsbD i = if x.getLsbD i then y.getLsbD i else z.getLsbD i := by
  simp only [f2, BitVec.getLsbD_or, BitVec.getLsbD_and, BitVec.getLsbD_not, hi]
  cases x.getLsbD i <;> simp

theorem getLsbD_f3 (hi : i < 32) :
    (f3 x y z).getLsbD i = ((x.getLsbD i || !y.getLsbD i) ^^ z.getLsbD i) := by
  simp [f3, hi]

/-- f4 selects `x` where `z` has a 1, and `y` elsewhere: it is f2 with its arguments turned. -/
theorem getLsbD_f4 (hi : i < 32) :
    (f4 x y z).getLsbD i = if z.getLsbD i then x.getLsbD i else y.getLsbD i := by
  have turn : f4 x y z = f2 z x y := by
    rw [f4, f2, BitVec.and_comm x z, BitVec.and_comm y]
  rw [turn, getLsbD_f2 z x y hi]

theorem getLsbD_f5 (hi : i < 32) :
    (f5 x y z).getLsbD i = (x.getLsbD i ^^ (y.getLsbD i || !z.getLsbD i)) := by
  simp [f5, hi]

end

/-- Settles O11: each function's bit by the lemma about it; each line's order is its table, read off. -/
theorem roundFunctionsPerBit : Obligations.RoundFunctionsPerBit :=
  ⟨fun x y z i hi =>
    ⟨getLsbD_f1 x y z, getLsbD_f2 x y z hi, getLsbD_f3 x y z hi, getLsbD_f4 x y z hi, getLsbD_f5 x y z hi⟩,
    rfl, rfl⟩

end Sys2Proof.Machine
end

section
/-! SUPPORT. Compression: a step's formula (R133), the two lines apart (R135), the blocks in order (R138). -/

namespace Sys2Proof.Machine

/-! ## One step of a line (R133) -/

/-- Below 32 the engine's rotation is the library's left rotation (R10). -/
theorem rol32_eq_rotateLeft (v : Word) {s : Nat} (hs : s < 32) : rol32 v s = v.rotateLeft s := by
  rw [BitVec.rotateLeft_def, Nat.mod_eq_of_lt hs, rol32]

/-- Settles O14: both rotations of the step are the library's; the worked example is computed. -/
theorem stepFormula : Obligations.StepFormula := by
  refine ⟨fun l f xw k s hs => ?_, by decide⟩
  rw [lineStep, rol32_eq_rotateLeft _ (by omega : s < 32), rol32_eq_rotateLeft _ (by omega : 10 < 32)]

/-! ## The two lines apart (R135) -/

/-- The left line through a list of positions. -/
def runLeft (x : Vector Word 16) (steps : List (Fin 5 × Fin 16)) (l : Line) : Line :=
  steps.foldl (fun l ri => leftStep x ri.1 ri.2 l) l

/-- The right line through a list of positions. -/
def runRight (x : Vector Word 16) (steps : List (Fin 5 × Fin 16)) (l : Line) : Line :=
  steps.foldl (fun l ri => rightStep x ri.1 ri.2 l) l

/-- The alternating order runs each line by itself. -/
theorem runLines_eq (x : Vector Word 16) (p : Line × Line) :
    runLines x p = (runLeft x stepOrder p.1, runRight x stepOrder p.2) :=
  List.foldl_hom₂ stepOrder Prod.mk _ _ _ p.1 p.2 fun _ _ _ => rfl

section
variable (x : Vector Word 16) (sched : List Bool)
  (ri : Fin 5 × Fin 16) (ls rs : List (Fin 5 × Fin 16)) (p : Line × Line)

/-- A turn of the left line takes its next step. -/
theorem runInterleaved_true_cons : runInterleaved x (true :: sched) (ri :: ls) rs p =
    runInterleaved x sched ls rs (leftStep x ri.1 ri.2 p.1, p.2) := rfl

/-- A turn of the right line takes its next step, wherever the left line is. -/
theorem runInterleaved_false_cons : runInterleaved x (false :: sched) ls (ri :: rs) p =
    runInterleaved x sched ls rs (p.1, rightStep x ri.1 ri.2 p.2) := by
  cases ls <;> rfl

end

/-- A schedule with as many turns for each line as the line has steps runs each line by itself. -/
theorem runInterleaved_eq (x : Vector Word 16) {sched : List Bool} {ls rs : List (Fin 5 × Fin 16)} (p : Line × Line)
    (hl : sched.count true = ls.length) (hr : sched.count false = rs.length) :
    runInterleaved x sched ls rs p = (runLeft x ls p.1, runRight x rs p.2) := by
  induction sched generalizing ls rs p with
  | nil =>
    obtain rfl := List.length_eq_zero_iff.mp hl.symm
    obtain rfl := List.length_eq_zero_iff.mp hr.symm
    rfl
  | cons turn sched ih =>
    cases turn with
    | true =>
      obtain ⟨ri, ls, rfl⟩ := List.exists_cons_of_length_eq_add_one (hl.symm.trans List.count_cons_self)
      rw [runInterleaved_true_cons]
      exact ih _ (by simpa using hl) (by simpa using hr)
    | false =>
      obtain ⟨ri, rs, rfl⟩ := List.exists_cons_of_length_eq_add_one (hr.symm.trans List.count_cons_self)
      rw [runInterleaved_false_cons]
      exact ih _ (by simpa using hl) (by simpa using hr)

theorem length_stepOrder : stepOrder.length = 80 := rfl

/-- Settles O15: the schedule and the alternating order both run each line by itself. -/
theorem linesAreIndependent : Obligations.LinesAreIndependent := by
  intro x p sched hl hr
  rw [runLines_eq, runInterleaved_eq x p (hl.trans length_stepOrder.symm) (hr.trans length_stepOrder.symm)]

/-! ## Blocks in order (R138) -/

@[simp] theorem compressBlocks_nil (h : HashState) : compressBlocks h [] = h := rfl

/-- A block in front is compressed first, and every later block moves up by one. -/
theorem compressBlocks_block_append (h : HashState) {block : List Byte} (hb : block.length = 64) (rest : List Byte) :
    compressBlocks h (block ++ rest) = compressBlocks (compress h block) rest := by
  have hcount : (block ++ rest).length / 64 = rest.length / 64 + 1 := by
    rw [List.length_append]
    omega
  have hfirst : (block ++ rest).take 64 = block := List.take_left' hb
  have hlater (m : Nat) : (block ++ rest).drop (64 * (m + 1)) = rest.drop (64 * m) := by
    rw [Nat.mul_succ, Nat.add_comm, ← List.drop_drop, List.drop_left' hb]
  simp only [compressBlocks, hcount, List.range_succ_eq_map, List.foldl_cons, List.foldl_map, hlater, Nat.mul_zero,
    List.drop_zero, hfirst]

/-- Settles O17: the block in front, then the rest; of no bytes there is no block. -/
theorem blocksCompressInOrder : Obligations.BlocksCompressInOrder :=
  fun h _ rest hb => ⟨compressBlocks_block_append h hb rest, compressBlocks_nil h⟩

end Sys2Proof.Machine
end

section
/-! SUPPORT. Padding, the padding state machine, and what finalize computes (R165 to R168, R176). -/

namespace Sys2Proof.Machine

/-! ## The bytes of the padding (R165, R166) -/

@[simp] theorem length_le64bytes (v : U64) : (le64bytes v).length = 8 := by simp [le64bytes]

/-- At most 63 zero bytes are needed. -/
theorem zeroCount_le (n : Nat) : zeroCount n ≤ 63 := by
  unfold zeroCount
  omega

/-- The zero bytes bring the length to 56 mod 64. -/
theorem add_zeroCount_mod (n : Nat) : (n + zeroCount n) % 64 = 56 := by
  unfold zeroCount
  omega

theorem length_pad (buf : List Byte) (cnt : U64) :
    (pad buf cnt).length = buf.length + 1 + zeroCount (buf.length + 1) + 8 := by
  simp [pad]
  omega

/-- A buffer with room for the mark and the length is padded up to the end of its block. -/
theorem zeroCount_of_le {n : Nat} (hn : n ≤ 55) : zeroCount (n + 1) = 55 - n := by
  unfold zeroCount
  omega

/-- A buffer without that room is padded up to the end of the next block. -/
theorem zeroCount_of_ge {n : Nat} (h56 : 56 ≤ n) (h63 : n ≤ 63) : zeroCount (n + 1) = 119 - n := by
  unfold zeroCount
  omega

/-- Settles O18: the number of zero bytes in each of the two ranges gives the length. -/
theorem paddingLength : Obligations.PaddingLength := by
  intro buf cnt
  refine ⟨fun h => ⟨?_, zeroCount_of_le h⟩, fun h56 h63 => ⟨?_, zeroCount_of_ge h56 h63⟩⟩
  · rw [length_pad, zeroCount_of_le h]
    omega
  · rw [length_pad, zeroCount_of_ge h56 h63]
    omega

/-- The bit length of `n` bytes, modulo 2^64. -/
theorem ofNat_mul_eight (n : Nat) : BitVec.ofNat 64 n * 8#64 = BitVec.ofNat 64 (8 * n) := by
  rw [Nat.mul_comm, BitVec.ofNat_mul]

/-- Settles O19: `zeroCount` is the number of zero bytes, and the rule's example is computed. -/
theorem paddingBytes : Obligations.PaddingBytes := by
  refine ⟨fun buf n => ⟨zeroCount (buf.length + 1), zeroCount_le _, add_zeroCount_mod _, ?_⟩, by decide⟩
  have hbits : BitVec.ofNat 64 (n * 8 % 2 ^ 64) = BitVec.ofNat 64 n * 8#64 := by
    rw [ofNat_mul_eight, Nat.mul_comm]
    simp [← BitVec.toNat_inj]
  rw [hbits]
  simp [pad]

/-! ## One byte into a block buffer (R162, R168) -/

/-- A byte that does not complete the block waits in the working buffer. -/
theorem padByte_of_ne {w : PadWork} (hl : w.wb.length ≠ 63) (b : Byte) :
    padByte w b = { w with wb := w.wb ++ [b] } := by
  have hn : ¬ (w.wb ++ [b]).length = 64 := by
    rw [List.length_append, List.length_singleton]
    omega
  simp only [padByte, hn, if_false]

/-- The 64th byte completes the block. -/
theorem padByte_of_eq {w : PadWork} (hl : w.wb.length = 63) (b : Byte) :
    padByte w b = { w with h := compress w.h (w.wb ++ [b]), wb := [] } := by
  have hn : (w.wb ++ [b]).length = 64 := by simp [hl]
  simp only [padByte, hn, if_true]

/-- The padding bytes are not counted. -/
theorem padByte_cnt (w : PadWork) (b : Byte) : (padByte w b).cnt = w.cnt := by
  by_cases hl : w.wb.length = 63
  · rw [padByte_of_eq hl]
  · rw [padByte_of_ne hl]

/-- The buffer's length counts the bytes modulo 64. -/
theorem length_padByte_wb {w : PadWork} (hl : w.wb.length < 64) (b : Byte) :
    (padByte w b).wb.length = (w.wb.length + 1) % 64 := by
  by_cases h63 : w.wb.length = 63
  · rw [padByte_of_eq h63, h63]
    rfl
  · rw [padByte_of_ne h63, List.length_append, List.length_singleton, Nat.mod_eq_of_lt (by omega)]

/-- One byte moved into the buffer does not change what the blocks of the whole sequence compress to. -/
theorem compressBlocks_padByte (w : PadWork) (b : Byte) (rest : List Byte) :
    compressBlocks (padByte w b).h ((padByte w b).wb ++ rest) = compressBlocks w.h (w.wb ++ b :: rest) := by
  rw [List.append_cons]
  by_cases h63 : w.wb.length = 63
  · have hblock : (w.wb ++ [b]).length = 64 := by simp [h63]
    rw [padByte_of_eq h63, compressBlocks_block_append _ hblock, List.nil_append]
  · rw [padByte_of_ne h63]

/-- The absorb primitive is the same move of one byte, and counts it. -/
theorem absorbByte_eq_padByte (ctx : Context) (b : Byte) :
    absorbByte ctx b = ⟨(padByte (padCopy ctx) b).h, ctx.cnt + 1#64, (padByte (padCopy ctx) b).wb⟩ := by
  by_cases hl : (ctx.buf ++ [b]).length = 64 <;>
    simp only [absorbByte, padByte, padCopy, hl, if_true, if_false]

/-! ## Many bytes into a block buffer -/

theorem foldl_padByte_cnt (bytes : List Byte) (w : PadWork) : (bytes.foldl padByte w).cnt = w.cnt := by
  induction bytes generalizing w with
  | nil => rfl
  | cons b bytes ih => rw [List.foldl_cons, ih, padByte_cnt]

theorem length_foldl_padByte_wb (bytes : List Byte) {w : PadWork} (hl : w.wb.length < 64) :
    (bytes.foldl padByte w).wb.length = (w.wb.length + bytes.length) % 64 := by
  induction bytes generalizing w with
  | nil => exact (Nat.mod_eq_of_lt hl).symm
  | cons b bytes ih =>
    have hb := length_padByte_wb hl b
    rw [List.foldl_cons, ih (by omega), hb, List.length_cons]
    omega

theorem compressBlocks_foldl_padByte (bytes : List Byte) (w : PadWork) (rest : List Byte) :
    compressBlocks (bytes.foldl padByte w).h ((bytes.foldl padByte w).wb ++ rest)
      = compressBlocks w.h (w.wb ++ (bytes ++ rest)) := by
  induction bytes generalizing w with
  | nil => rfl
  | cons b bytes ih => rw [List.foldl_cons, ih, compressBlocks_padByte, List.cons_append]

/-- Bytes already absorbed may be put back in front: the blocks compress to the same. -/
theorem compressBlocks_absorbBytes (bytes : List Byte) (ctx : Context) (rest : List Byte) :
    compressBlocks (absorbBytes ctx bytes).h ((absorbBytes ctx bytes).buf ++ rest)
      = compressBlocks ctx.h (ctx.buf ++ (bytes ++ rest)) := by
  induction bytes generalizing ctx with
  | nil => rfl
  | cons b bytes ih =>
    rw [absorbBytes_cons, ih, absorbByte_eq_padByte, compressBlocks_padByte, List.cons_append]
    rfl

/-- Fewer than 64 bytes are no block. -/
theorem compressBlocks_of_lt {bytes : List Byte} (hl : bytes.length < 64) (h : HashState) :
    compressBlocks h bytes = h := by
  simp [compressBlocks, Nat.div_eq_of_lt hl]

/-! ## The padding state machine (R168) -/

/-- P_ZERO appends the number of zero bytes that brings the buffer to 56. -/
theorem padZeroLoop_eq_foldl {n fuel : Nat} (hn : n ≤ 63) (hf : n ≤ fuel) {w : PadWork} (hl : w.wb.length < 64)
    (hz : (w.wb.length + n) % 64 = 56) : padZeroLoop fuel w = (List.replicate n 0x00#8).foldl padByte w := by
  induction n generalizing fuel w with
  | zero =>
    have h56 : w.wb.length = 56 := by omega
    cases fuel with
    | zero => rfl
    | succ fuel => simp [padZeroLoop, h56]
  | succ n ih =>
    have h56 : ¬ w.wb.length = 56 := by omega
    have hb := length_padByte_wb hl 0x00#8
    obtain ⟨fuel, rfl⟩ := Nat.exists_eq_succ_of_ne_zero (by omega : fuel ≠ 0)
    rw [padZeroLoop, if_neg h56, List.replicate_succ, List.foldl_cons]
    exact ih (by omega) (by omega) (by omega) (by omega)

/-- The mark and the zero bytes that padding appends to a buffer of `n` bytes (R165). -/
def markAndZeros (n : Nat) : List Byte := 0x80#8 :: List.replicate (zeroCount (n + 1)) 0x00#8

theorem pad_eq_append (buf : List Byte) (cnt : U64) :
    pad buf cnt = buf ++ (markAndZeros buf.length ++ le64bytes (cnt * 8#64)) := by
  simp [pad, markAndZeros]

theorem length_append_markAndZeros (buf : List Byte) : (buf.length + (markAndZeros buf.length).length) % 64 = 56 := by
  have hz := add_zeroCount_mod (buf.length + 1)
  rw [markAndZeros, List.length_cons, List.length_replicate]
  omega

section
variable {ctx : Context} (hl : ctx.buf.length < 64)
include hl

/-- P_COPY, P_MARK and P_ZERO move the mark and the zero bytes into the working buffer, one at a time. -/
theorem padZero_padMark_padCopy :
    padZero (padMark (padCopy ctx)) = (markAndZeros ctx.buf.length).foldl padByte (padCopy ctx) := by
  have hmark : (padMark (padCopy ctx)).wb.length = (ctx.buf.length + 1) % 64 := length_padByte_wb hl 0x80#8
  have hz := add_zeroCount_mod (ctx.buf.length + 1)
  have hle := zeroCount_le (ctx.buf.length + 1)
  exact padZeroLoop_eq_foldl hle (by omega) (by omega) (by omega)

/-- After P_ZERO the length bytes are what is missing of the block. -/
theorem length_padZero_wb : (padZero (padMark (padCopy ctx))).wb.length = 56 := by
  rw [padZero_padMark_padCopy hl, length_foldl_padByte_wb _ hl]
  exact length_append_markAndZeros ctx.buf

/-- After P_ZERO the chaining value has taken in the whole blocks of the buffer, the mark and the zero bytes. -/
theorem padZero_h : (padZero (padMark (padCopy ctx))).h
    = compressBlocks ctx.h (ctx.buf ++ markAndZeros ctx.buf.length) := by
  have hshort : (padZero (padMark (padCopy ctx))).wb.length < 64 := by simp [length_padZero_wb hl]
  have hfold := compressBlocks_foldl_padByte (markAndZeros ctx.buf.length) (padCopy ctx) []
  rw [List.append_nil, List.append_nil, ← padZero_padMark_padCopy hl, compressBlocks_of_lt hshort] at hfold
  exact hfold

/-- The phases give `finalize`: P_LEN completes the last block of the padded buffer. -/
theorem padMachine_eq_finalize : padMachine ctx = finalize ctx := by
  have hlen : ((padZero (padMark (padCopy ctx))).wb ++ le64bytes (ctx.cnt * 8#64)).length = 64 := by
    simp [length_padZero_wb hl]
  have hcnt : (padZero (padMark (padCopy ctx))).cnt = ctx.cnt := by
    rw [padZero_padMark_padCopy hl, foldl_padByte_cnt]
    rfl
  have hlast := compressBlocks_block_append (padZero (padMark (padCopy ctx))).h hlen []
  rw [List.append_nil, compressBlocks_nil] at hlast
  rw [padMachine, padLen, hcnt, ← hlast, finalize, pad_eq_append, padZero_padMark_padCopy hl,
    compressBlocks_foldl_padByte]
  rfl

end

/-- Settles O20: P_ZERO's chaining value and buffer length by the lemmas above, P_MARK's by the move of one byte. -/
theorem paddingMachineIsFinalize : Obligations.PaddingMachineIsFinalize := by
  intro s c ctx h63
  have hl : ctx.buf.length < 64 := by omega
  refine ⟨padMachine_eq_finalize hl, length_padZero_wb hl, fun h => padByte_of_eq h _, fun h56 h62 => ⟨?_, ?_⟩,
    fun h55 => ?_, fun hc => ?_⟩
  · exact padByte_of_ne (w := padCopy ctx) (by simp only [padCopy]; omega) _
  · have hzeros : zeroCount (ctx.buf.length + 1) = 63 - ctx.buf.length + 56 := by
      rw [zeroCount_of_ge h56 h63]
      omega
    have hsplit : ctx.buf ++ markAndZeros ctx.buf.length
        = (ctx.buf ++ [0x80#8] ++ List.replicate (63 - ctx.buf.length) 0x00#8) ++ List.replicate 56 0x00#8 := by
      simp [markAndZeros, hzeros, List.replicate_add]
    have hblock : (ctx.buf ++ [0x80#8] ++ List.replicate (63 - ctx.buf.length) 0x00#8).length = 64 := by
      simp
      omega
    rw [padZero_h hl, hsplit, compressBlocks_block_append _ hblock, compressBlocks_of_lt (by simp)]
  · have hshort : (ctx.buf ++ markAndZeros ctx.buf.length).length < 64 := by
      simp [markAndZeros, zeroCount_of_le h55]
      omega
    rw [padZero_h hl, compressBlocks_of_lt hshort]
  · rw [exec_digest hc, padMachine_eq_finalize hl]
    rfl

/-! ## RIPEMD-160 in closed form (R176) -/

/-- CNT counts the absorbed bytes, modulo 2^64 (R23). -/
theorem absorbBytes_cnt (bytes : List Byte) (ctx : Context) :
    (absorbBytes ctx bytes).cnt = ctx.cnt + BitVec.ofNat 64 bytes.length := by
  induction bytes generalizing ctx with
  | nil => simp
  | cons b bytes ih =>
    rw [absorbBytes_cons, ih, absorbByte_eq_padByte, List.length_cons, Nat.add_comm, BitVec.ofNat_add, BitVec.add_assoc]

/-- After a message the buffer holds its length mod 64, also where CNT has wrapped, as 64 divides 2^64 (R26). -/
theorem length_absorbBytes_fresh_buf (m : List Byte) :
    (absorbBytes Context.fresh m).buf.length = m.length % 64 := by
  obtain ⟨_, hmod⟩ := absorbBytes_inv Context.fresh_inv m
  rw [hmod, absorbBytes_cnt]
  simp [Context.fresh]

/-- What padding appends to the message's own length is what it appends to the bytes left over from its blocks. -/
theorem paddedMessage_eq (m : List Byte) :
    paddedMessage m = m ++ (markAndZeros (absorbBytes Context.fresh m).buf.length
      ++ le64bytes ((absorbBytes Context.fresh m).cnt * 8#64)) := by
  have hzeros : ((55 - (m.length : Int)) % 64).toNat = zeroCount (m.length % 64 + 1) := by
    unfold zeroCount
    omega
  have hcnt : (absorbBytes Context.fresh m).cnt = BitVec.ofNat 64 m.length := by
    simp [absorbBytes_cnt, Context.fresh]
  rw [paddedMessage, hzeros, length_absorbBytes_fresh_buf, hcnt, ofNat_mul_eight, markAndZeros]
  simp

/-- DIGEST of the context a message has left is RIPEMD-160 of the message. -/
theorem finalize_absorbBytes_fresh (m : List Byte) : finalize (absorbBytes Context.fresh m) = rmd160Words m := by
  rw [finalize, pad_eq_append, compressBlocks_absorbBytes, rmd160Words, paddedMessage_eq]
  rfl

theorem length_paddedMessage_mod (m : List Byte) : (paddedMessage m).length % 64 = 0 := by
  simp [paddedMessage]
  omega

/-- Settles O21: the closed form, and the padded message's length. -/
theorem finalizeIsRmd160 : Obligations.FinalizeIsRmd160 :=
  fun m => ⟨finalize_absorbBytes_fresh m, length_paddedMessage_mod m⟩

end Sys2Proof.Machine
end

section
/-! SUPPORT. The four commands' rules (R161, R163, R169, R172), and DOC's batch update (R164). -/

namespace Sys2Proof.Machine

/-! ## Absorbing a whole ABSORB's bytes, and DOC's update (R162, R164) -/

/-- A byte that does not complete the block waits in the buffer, whatever its length. -/
theorem absorbByte_of_ne {ctx : Context} (hl : ctx.buf.length ≠ 63) (b : Byte) :
    absorbByte ctx b = ⟨ctx.h, ctx.cnt + 1#64, ctx.buf ++ [b]⟩ := by
  rw [absorbByte_eq_padByte, padByte_of_ne hl]
  rfl

/-- Fewer than 64 bytes are not drained. -/
theorem drain_of_lt {buf : List Byte} (hl : buf.length < 64) (h : HashState) :
    drain (buf.length / 64) h buf = (h, buf) := by
  rw [Nat.div_eq_of_lt hl]
  rfl

/-- A block in front is drained first. -/
theorem drain_block_append {block : List Byte} (hb : block.length = 64) (h : HashState) (rest : List Byte) :
    drain ((block ++ rest).length / 64) h (block ++ rest) = drain (rest.length / 64) (compress h block) rest := by
  have hturns : (block ++ rest).length / 64 = rest.length / 64 + 1 := by
    rw [List.length_append]
    omega
  have hle : 64 ≤ (block ++ rest).length := by
    rw [List.length_append]
    omega
  rw [hturns, drain, if_pos hle, List.take_left' hb, List.drop_left' hb]

/-- An empty update changes nothing. -/
theorem docUpdate_nil {ctx : Context} (hl : ctx.buf.length < 64) : docUpdate ctx [] = ctx := by
  simp [docUpdate, drain_of_lt hl]

/-- DOC's update may take its first byte alone. -/
theorem docUpdate_cons (ctx : Context) (b : Byte) (data : List Byte) :
    docUpdate ctx (b :: data) = docUpdate (absorbByte ctx b) data := by
  have hcnt : ctx.cnt + BitVec.ofNat 64 (b :: data).length = ctx.cnt + 1#64 + BitVec.ofNat 64 data.length := by
    rw [List.length_cons, Nat.add_comm, BitVec.ofNat_add, BitVec.add_assoc]
  rw [docUpdate, hcnt, List.append_cons]
  by_cases h63 : ctx.buf.length = 63
  · have hblock : (ctx.buf ++ [b]).length = 64 := by simp [h63]
    rw [absorbByte_of_eq h63, drain_block_append hblock]
    rfl
  · rw [absorbByte_of_ne h63]
    rfl

/-- Absorbing byte by byte is DOC's batch update. -/
theorem absorbBytes_eq_docUpdate {ctx : Context} (hi : ctx.Inv) (data : List Byte) :
    absorbBytes ctx data = docUpdate ctx data := by
  induction data generalizing ctx with
  | nil => exact (docUpdate_nil hi.1).symm
  | cons b data ih => rw [absorbBytes_cons, ih (absorbByte_inv hi b), docUpdate_cons]

section
variable {ctx : Context} {data : List Byte}

/-- An update that fills no block only appends. -/
theorem docUpdate_of_lt (hl : (ctx.buf ++ data).length < 64) :
    docUpdate ctx data = ⟨ctx.h, ctx.cnt + BitVec.ofNat 64 data.length, ctx.buf ++ data⟩ := by
  rw [docUpdate, drain_of_lt hl]

/-- An update that fills one block compresses it and keeps the rest. -/
theorem docUpdate_of_ge (h64 : 64 ≤ (ctx.buf ++ data).length) (h128 : (ctx.buf ++ data).length < 128) :
    docUpdate ctx data = ⟨compress ctx.h ((ctx.buf ++ data).take 64), ctx.cnt + BitVec.ofNat 64 data.length,
      (ctx.buf ++ data).drop 64⟩ := by
  have hblock : ((ctx.buf ++ data).take 64).length = 64 := List.length_take_of_le h64
  have hrest : ((ctx.buf ++ data).drop 64).length < 64 := by
    rw [List.length_drop]
    omega
  have hdrain := drain_block_append hblock ctx.h ((ctx.buf ++ data).drop 64)
  rw [List.take_append_drop, drain_of_lt hrest] at hdrain
  rw [docUpdate, hdrain]

end

/-! ## The rules -/

/-- A word with a legal opcode and a reserved bit set fails with ERR_RESERVED, whatever the command (R80). -/
theorem runWord_of_reserved {cw : U64} (hop : opcField cw ∈ [0x01#8, 0x02#8, 0x03#8, 0x04#8])
    (hr : rsvField cw ≠ 0#14) (s : State) : runWord cw s = .next (s.raiseErr .errReserved) :=
  (reservedBitsFail.2 cw s hop hr).2

theorem State.context?_eq_none {s : State} {c : SlotIdx} (hv : s.valid c = false) : s.context? c = none := by
  simpa [State.valid] using hv

/-- Writing back what a slot holds changes nothing. -/
theorem State.setSlot_of_context? {s : State} {c : SlotIdx} {ctx : Context} (hc : s.context? c = some ctx) :
    s.setSlot c ctx = s := by
  have hslot : s.slots[c.val]? = some (some ctx) := by
    simpa [State.context?, Option.join_eq_some_iff] using hc
  obtain ⟨hlt, hget⟩ := List.getElem?_eq_some_iff.mp hslot
  rw [State.setSlot, ← hget, List.set_getElem_self]

/-- A slot written twice with one context is a slot written once. -/
theorem State.complete_setSlot_idem (s : State) (c : SlotIdx) (ctx : Context) :
    ((s.setSlot c ctx).complete.setSlot c ctx).complete = (s.setSlot c ctx).complete := by
  simp [State.complete, State.setSlot, Status.afterOk]

/-- Settles O23: INIT by its two cases; given again it writes the same context. -/
theorem initRule : Obligations.InitRule := by
  intro s c
  refine ⟨exec_init, exec_init_of_nctx_le, fun t ht => ?_, fun cw hop hr => ?_⟩
  · by_cases hc : c.val < s.nctx
    · cases (exec_init hc).symm.trans ht
      refine ⟨?_, by simp⟩
      rw [exec_init (by simpa using hc), State.complete_setSlot_idem]
    · have hle : s.nctx ≤ c.val := Nat.not_lt.mp hc
      cases (exec_init_of_nctx_le hle).symm.trans ht
      exact ⟨exec_init_of_nctx_le (s := s.raiseErr .errCtx) hle, by simp⟩
  · exact runWord_of_reserved (by simp [hop]) hr s

/-- Settles O24: the primitive by its two cases, ABSORB by those of its slot, and its bytes as one update of DOC's. -/
theorem absorbRule : Obligations.AbsorbRule := by
  refine ⟨fun ctx b => ⟨fun h => absorbByte_of_eq h b, fun h => absorbByte_of_ne h b⟩, fun s c bytes => ?_⟩
  refine ⟨fun ctx hc => exec_absorb hc bytes, fun hc => exec_absorb_of_error (State.readSlot_of_nctx_le hc) bytes,
    fun hc hv => exec_absorb_of_error (State.readSlot_of_none hc (State.context?_eq_none hv)) bytes,
    fun cw hop hr => runWord_of_reserved (by simp [hop]) hr s, fun ctx hi h4 => ?_,
    fun e t ht => exec_context?_of_not_mem_slotsWritten ht (by simp [slotsWritten])⟩
  have hall : (ctx.buf ++ bytes).length < 64 + 4 := by
    have hbuf := hi.1
    rw [List.length_append]
    omega
  have hupdate : bytes.foldl absorbByte ctx = docUpdate ctx bytes := absorbBytes_eq_docUpdate hi bytes
  refine ⟨fun hl => hupdate.trans (docUpdate_of_lt hl),
    fun hl => ⟨hupdate.trans (docUpdate_of_ge hl (by omega)), ?_⟩⟩
  rw [List.length_drop]
  omega

/-- Settles O25: DIGEST by the cases of its slot, which it does not write; the corner cases by the number of zero
bytes. -/
theorem digestRule : Obligations.DigestRule := by
  intro s c
  refine ⟨fun ctx hc => exec_digest hc, fun hc => exec_digest_of_error (State.readSlot_of_nctx_le hc),
    fun hc hv => exec_digest_of_error (State.readSlot_of_none hc (State.context?_eq_none hv)),
    fun cw hop hr => runWord_of_reserved (by simp [hop]) hr s, fun ctx t hc ht => ?_,
    fun ctx => ⟨fun hb => ?_, fun hl => ?_, fun h56 h63 => ?_⟩⟩
  · cases (exec_digest hc).symm.trans ht
    exact exec_digest (s := (s.writeDigest c (finalize ctx)).complete) hc
  · have hzeros : zeroCount 1 = 55 := zeroCount_of_le (n := 0) (by omega)
    simp [pad, hb, hzeros]
  · have hzeros : zeroCount 56 = 0 := zeroCount_of_le (n := 55) (by omega)
    simp [pad, hl, hzeros]
  · exact ((paddingLength ctx.buf ctx.cnt).2 h56 h63).1

/-- Settles O26: COPY by the cases of its two slots; onto itself it writes back what is there. -/
theorem copyRule : Obligations.CopyRule := by
  intro s d src
  refine ⟨fun ctx hd hc => exec_copy hd hc, fun hle => ?_,
    fun hd hs hv => exec_copy_of_error hd (State.readSlot_of_none hs (State.context?_eq_none hv)), fun hv => ?_,
    fun cw hop hr => runWord_of_reserved (by simp [hop]) hr s⟩
  · by_cases hd : d.val < s.nctx
    · have hsrc : s.nctx ≤ src.val := by omega
      exact exec_copy_of_error hd (State.readSlot_of_nctx_le hsrc)
    · exact exec_copy_of_nctx_le (Nat.not_lt.mp hd) src
  · obtain ⟨ctx, hc⟩ := (s.valid_iff src).mp hv
    rw [exec_copy (State.lt_nctx_of_context? hc) hc, State.setSlot_of_context? hc]
    rfl

end Sys2Proof.Machine
end

section
/-! SUPPORT. One interaction of the host: issued commands (R70, R77), completion (R240), and what a slot sees of it (R35). -/

namespace Sys2Proof.Machine

/-! ## Issued commands (R70, R77) -/

/-- A command a word can carry is read back from its canonical word. -/
theorem decode_encode {i : Instr} (hwf : i.wf = true) : decode (encode i) = .command i := by
  rw [decode_eq_command_iff]
  cases i with
  | init c =>
    obtain ⟨_, hrsv, _, _, hctx, hopc⟩ := (eq_packWord_iff ..).mp (rfl : encode (.init c) = _)
    exact ⟨(byOpcode_eq_init_iff ..).mpr ⟨hopc, hctx⟩, hrsv⟩
  | absorb c bytes =>
    have hl := (wf_absorb_iff c bytes).mp hwf
    obtain ⟨hdata, hrsv, hnbm1, _, hctx, hopc⟩ := (eq_packWord_iff ..).mp (rfl : encode (.absorb c bytes) = _)
    have hlane := (eq_dataField_iff ..).mp hdata
    have hlanes := (lanes_eq_iff hl _).mpr ⟨hnbm1, fun k hk => hlane k (by omega)⟩
    exact ⟨(byOpcode_eq_absorb_iff ..).mpr ⟨hopc, hctx, hlanes⟩, hrsv⟩
  | digest c =>
    obtain ⟨_, hrsv, _, _, hctx, hopc⟩ := (eq_packWord_iff ..).mp (rfl : encode (.digest c) = _)
    exact ⟨(byOpcode_eq_digest_iff ..).mpr ⟨hopc, hctx⟩, hrsv⟩
  | copy d src =>
    obtain ⟨_, hrsv, _, hsrc, hctx, hopc⟩ := (eq_packWord_iff ..).mp (rfl : encode (.copy d src) = _)
    exact ⟨(byOpcode_eq_copy_iff ..).mpr ⟨hopc, hctx, hsrc⟩, hrsv⟩

/-- A step with an issued command next runs it. -/
theorem step_of_issued {s : State} {i : Instr} {rest : List HostAction} (hwf : i.wf = true)
    (hp : s.pending = .command (encode i) :: rest) : step s = exec i (s.withPending rest) := by
  simp [step_of_cons hp, perform, runWord, decode_encode hwf]

/-! ## One interaction: it completes, and what it does to a slot and to the host's side -/

theorem exec_completes (i : Instr) (s : State) : ∃ t, exec i s = .next t := by
  obtain ⟨t, _, ht, _⟩ := commandsReadOnlyTheirSlots i s s rfl fun _ _ => rfl
  exact ⟨t, ht⟩

theorem runWord_completes (cw : U64) (s : State) : ∃ t, runWord cw s = .next t := by
  unfold runWord
  split
  · exact ⟨_, rfl⟩
  · exact exec_completes _ s

theorem perform_completes (a : HostAction) (s : State) : ∃ t, perform a s = .next t := by
  cases a with
  | command cw => exact runWord_completes cw s
  | readStatus => exact ⟨_, rfl⟩
  | readDout w => exact ⟨_, rfl⟩
  | reset => exact ⟨_, rfl⟩

/-- A command leaves the host's queue and its readings alone. -/
theorem exec_host {i : Instr} {s t : State} (hx : exec i s = .next t) :
    t.pending = s.pending ∧ t.readings = s.readings := by
  rcases exec_cases hx with ⟨_, _, rfl⟩ | ⟨_, _, _, rfl⟩ | ⟨_, _, _, _, _, rfl⟩ | ⟨_, _, _, _, rfl⟩
    | ⟨_, _, _, _, _, _, rfl⟩
  all_goals exact ⟨rfl, rfl⟩

theorem runWord_host {cw : U64} {s t : State} (hx : runWord cw s = .next t) :
    t.pending = s.pending ∧ t.readings = s.readings := by
  rcases runWord_cases hx with ⟨e, _, rfl⟩ | ⟨i, _, hx⟩
  · exact ⟨rfl, rfl⟩
  · exact exec_host hx

theorem perform_pending {a : HostAction} {s t : State} (hx : perform a s = .next t) : t.pending = s.pending := by
  cases a with
  | command cw => exact (runWord_host hx).1
  | readStatus => cases hx; rfl
  | readDout w => cases hx; exact s.readDout_pending w
  | reset => cases hx; rfl

/-- A slot that the interaction does not write is left as it was (R35). -/
theorem perform_context?_of_not_writesSlot {a : HostAction} {s t : State} {c : SlotIdx} (hx : perform a s = .next t)
    (hw : a.writesSlot c = false) : t.context? c = s.context? c := by
  cases a with
  | command cw =>
    rcases runWord_cases hx with ⟨e, _, rfl⟩ | ⟨i, hd, hx⟩
    · rfl
    · have hc : c ∉ slotsWritten i := by simpa [HostAction.writesSlot, hd] using hw
      exact exec_context?_of_not_mem_slotsWritten hx hc
  | readStatus => cases hx; rfl
  | readDout w => cases hx; exact s.context?_readDout c w
  | reset => simp [HostAction.writesSlot] at hw

/-- What writes a slot without replacing its context is an ABSORB on it. -/
theorem exists_absorb_of_writesSlot {a : HostAction} {c : SlotIdx} (hw : a.writesSlot c = true)
    (hr : a.replacesSlot c = false) : ∃ cw bytes, a = .command cw ∧ decode cw = .command (.absorb c bytes) := by
  cases a with
  | command cw =>
    cases hd : decode cw with
    | illegal e => simp [HostAction.writesSlot, hd] at hw
    | command i =>
      have hmem : c ∈ slotsWritten i := by simpa [HostAction.writesSlot, hd] using hw
      cases i with
      | absorb c' bytes =>
        obtain rfl : c = c' := by simpa [slotsWritten] using hmem
        exact ⟨cw, bytes, rfl, hd⟩
      | digest c' => simp [slotsWritten] at hmem
      | init c' => simp_all [HostAction.replacesSlot, slotsWritten]
      | copy d src => simp_all [HostAction.replacesSlot, slotsWritten]
  | readStatus => simp [HostAction.writesSlot] at hw
  | readDout w => simp [HostAction.writesSlot] at hw
  | reset => simp [HostAction.replacesSlot] at hr

/-- An ABSORB on a valid slot absorbs its bytes (R163). -/
theorem perform_context?_of_absorb {cw : U64} {s t : State} {c : SlotIdx} {bytes : List Byte} {ctx : Context}
    (hx : perform (.command cw) s = .next t) (hd : decode cw = .command (.absorb c bytes))
    (hc : s.context? c = some ctx) : t.context? c = some (absorbBytes ctx bytes) := by
  have hexec : exec (.absorb c bytes) s = .next t := by simpa [perform, runWord, hd] using hx
  cases (exec_absorb hc bytes).symm.trans hexec
  exact State.context?_setSlot_self (State.lt_nctx_of_context? hc) _

/-- An ABSORB on the slot carries its bytes. -/
theorem bytesFor_cons_of_absorb {cw : U64} {c : SlotIdx} {bytes : List Byte}
    (hd : decode cw = .command (.absorb c bytes)) (acts : List HostAction) :
    bytesFor c (.command cw :: acts) = bytes ++ bytesFor c acts := by
  simp [bytesFor, hd]

/-- An interaction that does not write the slot carries no bytes for it. -/
theorem bytesFor_cons_of_not_writesSlot {a : HostAction} {c : SlotIdx} (hw : a.writesSlot c = false)
    (acts : List HostAction) : bytesFor c (a :: acts) = bytesFor c acts := by
  cases a with
  | command cw =>
    cases hd : decode cw with
    | illegal e => simp [bytesFor, hd]
    | command i => cases i <;> simp_all [HostAction.writesSlot, slotsWritten, bytesFor, eq_comm]
  | readStatus => rfl
  | readDout w => rfl
  | reset => rfl

/-- An interaction that does not write the slot does not replace its context. -/
theorem replacesSlot_of_not_writesSlot {a : HostAction} {c : SlotIdx} (hw : a.writesSlot c = false) :
    a.replacesSlot c = false := by
  cases a with
  | command cw =>
    cases hd : decode cw with
    | illegal e => simp [HostAction.replacesSlot, hd]
    | command i => cases i <;> simp_all [HostAction.writesSlot, HostAction.replacesSlot, slotsWritten, eq_comm]
  | readStatus => rfl
  | readDout w => rfl
  | reset => simp [HostAction.writesSlot] at hw

end Sys2Proof.Machine
end

section
/-! SUPPORT. Whole runs on a slot: streams of commands, copies, and the one-shot digest (R164, R171, R173, R175, R176). -/

namespace Sys2Proof.Machine

/-! ## Runs (R175) -/

/-- A run of the interactions `acts`, none of which replaces the slot's context: the slot absorbs the bytes they carry
for it. -/
theorem run_context? {c : SlotIdx} {acts rest : List HostAction} {s t : State} {ctx : Context}
    (hr : ∀ a ∈ acts, a.replacesSlot c = false) (hp : s.pending = acts ++ rest) (hc : s.context? c = some ctx)
    (hx : run acts.length s = .next t) : t.context? c = some (absorbBytes ctx (bytesFor c acts)) := by
  induction acts generalizing s ctx with
  | nil => cases hx; exact hc
  | cons a acts ih =>
    obtain ⟨u, hu, hrun⟩ := run_succ_cases hx
    rw [step_of_cons hp] at hu
    have hpu : u.pending = acts ++ rest := perform_pending hu
    have hracts : ∀ b ∈ acts, b.replacesSlot c = false := fun b hb => hr b (List.mem_cons_of_mem a hb)
    cases hw : a.writesSlot c with
    | false =>
      have hcu : u.context? c = some ctx := (perform_context?_of_not_writesSlot hu hw).trans hc
      rw [bytesFor_cons_of_not_writesSlot hw]
      exact ih hracts hpu hcu hrun
    | true =>
      obtain ⟨cw, bytes, rfl, hd⟩ := exists_absorb_of_writesSlot hw (hr a List.mem_cons_self)
      have hcu : u.context? c = some (absorbBytes ctx bytes) := perform_context?_of_absorb hu hd hc
      rw [bytesFor_cons_of_absorb hd, absorbBytes_append]
      exact ih hracts hpu hcu hrun

/-- A run completes all the interactions it takes, and takes them off the queue. -/
theorem run_completes (acts : List HostAction) {rest : List HostAction} {s : State} (hp : s.pending = acts ++ rest) :
    ∃ t, run acts.length s = .next t ∧ t.pending = rest := by
  induction acts generalizing s with
  | nil => exact ⟨s, rfl, hp⟩
  | cons a acts ih =>
    obtain ⟨u, hu⟩ := perform_completes a (s.withPending (acts ++ rest))
    obtain ⟨t, ht, hpt⟩ := ih (s := u) (perform_pending hu)
    exact ⟨t, (run_succ ((step_of_cons hp).trans hu) _).trans ht, hpt⟩

/-- A run of commands returns nothing to the host. -/
theorem run_issue_readings {is : List Instr} {rest : List HostAction} {s t : State}
    (hp : s.pending = issue is ++ rest) (hx : run (issue is).length s = .next t) : t.readings = s.readings := by
  induction is generalizing s with
  | nil => cases hx; rfl
  | cons i is ih =>
    obtain ⟨u, hu, hx⟩ := run_succ_cases hx
    rw [step_of_cons hp] at hu
    obtain ⟨hpu, hru⟩ := runWord_host hu
    exact (ih hpu hx).trans hru

/-- A run of DOUT reads after a successful DIGEST returns the words of DOUT (R29, R66). -/
theorem run_readDout_readings {ws : List (Fin 5)} {rest : List HostAction} {s t : State}
    (hp : s.pending = ws.map .readDout ++ rest) (hdv : s.status.dv = true)
    (hx : run (ws.map HostAction.readDout).length s = .next t) :
    t.readings = s.readings ++ ws.map fun w => .dout w (s.dout.get w) := by
  induction ws generalizing s with
  | nil => cases hx; simp
  | cons w ws ih =>
    obtain ⟨u, hu, hx⟩ := run_succ_cases hx
    rw [step_of_cons hp] at hu
    cases hu
    rw [ih (by simp) (by simpa using hdv) hx]
    simp [State.readDout, hdv]

/-- The first command of a queue, and then the interactions `acts`. -/
theorem run_of_issued_cons {i : Instr} (hwf : i.wf = true) {acts rest : List HostAction} {s u : State}
    (hp : s.pending = .command (encode i) :: (acts ++ rest)) (hu : exec i (s.withPending (acts ++ rest)) = .next u) :
    ∃ t, run (acts.length + 1) s = .next t ∧ run acts.length u = .next t ∧ u.pending = acts ++ rest
      ∧ t.pending = rest := by
  have hpu : u.pending = acts ++ rest := (exec_host hu).1
  obtain ⟨t, ht, hpt⟩ := run_completes acts hpu
  exact ⟨t, (run_succ ((step_of_issued hwf hp).trans hu) _).trans ht, ht, hpu, hpt⟩

/-- A run that ends before a DIGEST of a valid slot, and the DIGEST. -/
theorem run_succ_of_digest {n : Nat} {c : SlotIdx} {rest : List HostAction} {s t : State} {ctx : Context}
    (hx : run n s = .next t) (hp : t.pending = .command (encode (.digest c)) :: rest)
    (hc : t.context? c = some ctx) :
    run (n + 1) s = .next ((t.withPending rest).writeDigest c (finalize ctx)).complete := by
  have hstep := (step_of_issued rfl hp).trans (exec_digest (s := t.withPending rest) hc)
  rw [run_add hx, run_succ hstep, run_zero]

/-! ## Streams -/

/-- The ABSORBs that carry `chunks` carry their concatenation for the slot, and do not replace its context. -/
theorem bytesFor_issue_absorbs (c : SlotIdx) {chunks : List (List Byte)}
    (hl : ∀ b ∈ chunks, 1 ≤ b.length ∧ b.length ≤ 4) :
    bytesFor c (issue (chunks.map (.absorb c))) = chunks.flatten
      ∧ ∀ a ∈ issue (chunks.map (.absorb c)), a.replacesSlot c = false := by
  have hd : ∀ b ∈ chunks, decode (encode (.absorb c b)) = .command (.absorb c b) :=
    fun b hb => decode_encode ((wf_absorb_iff c b).mpr (hl b hb))
  constructor
  · clear hl
    induction chunks with
    | nil => rfl
    | cons b chunks ih =>
      have htail := ih fun x hx => hd x (List.mem_cons_of_mem b hx)
      rw [List.flatten_cons, ← htail]
      exact bytesFor_cons_of_absorb (hd b List.mem_cons_self) _
  · intro a ha
    obtain ⟨b, hb, rfl⟩ : ∃ b ∈ chunks, HostAction.command (encode (.absorb c b)) = a := by
      simpa [issue] using ha
    simp [HostAction.replacesSlot, hd b hb]

/-- Settles O43: the slot absorbs the concatenation, which is DOC's update. -/
theorem absorbsAreDocUpdate : Obligations.AbsorbsAreDocUpdate := by
  intro s c ctx chunks rest hc hi hl hp
  obtain ⟨hbytes, hkeeps⟩ := bytesFor_issue_absorbs c hl
  obtain ⟨t, ht, hpt⟩ := run_completes _ hp
  have hct := run_context? hkeeps hp hc ht
  rw [hbytes, absorbBytes_eq_docUpdate hi] at hct
  have hlen : (issue (chunks.map (.absorb c))).length = chunks.length := by simp [issue]
  exact ⟨docUpdate_nil hi.1, t, hlen ▸ ht, hct, hpt⟩

/-- Settles O44: INIT leaves the fresh context, and the slot then absorbs the bytes of the interactions. -/
theorem chunkingDoesNotMatter : Obligations.ChunkingDoesNotMatter := by
  intro s c acts rest hc hr hp
  obtain ⟨t, ht, htu, hpu, hpt⟩ := run_of_issued_cons rfl hp (exec_init hc)
  exact ⟨t, ht, hpt, run_context? hr hpu (State.context?_setSlot_self hc _) htu⟩

/-- Settles O45: the stream leaves the context of the bytes absorbed, and DIGEST of it is their RIPEMD-160. -/
theorem digestOfAStreamIsRmd160 : Obligations.DigestOfAStreamIsRmd160 := by
  intro s c acts rest hc hr hp
  obtain ⟨t, ht, hpt, hct⟩ := chunkingDoesNotMatter s c acts _ hc hr hp
  exact ⟨_, run_succ_of_digest ht hpt hct, rfl, finalize_absorbBytes_fresh _, rfl, rfl, rfl⟩

/-- Settles O46: interactions that do not write the slot carry no bytes for it, so both DIGESTs finalize one context. -/
theorem digestIsRepeatable : Obligations.DigestIsRepeatable := by
  intro s c ctx acts rest hc hw hp
  have hr : ∀ a ∈ acts, a.replacesSlot c = false := fun a ha => replacesSlot_of_not_writesSlot (hw a ha)
  have hbytes : bytesFor c acts = [] := by
    clear hp hr
    induction acts with
    | nil => rfl
    | cons a acts ih =>
      rw [bytesFor_cons_of_not_writesSlot (hw a List.mem_cons_self)]
      exact ih fun b hb => hw b (List.mem_cons_of_mem a hb)
  obtain ⟨v, hv, hvu, hpu, hpv⟩ := run_of_issued_cons rfl hp (exec_digest (s := s.withPending _) hc)
  have hcv : v.context? c = some ctx := by
    have h := run_context? hr hpu hc hvu
    rwa [hbytes, absorbBytes_nil] at h
  exact ⟨_, _, run_succ_of_digest (run_zero s) hp hc, rfl, run_succ_of_digest hv hpv hcv, hcv, rfl⟩

/-- Settles O48: after the COPY both slots hold the source's context, and each absorbs its own bytes. -/
theorem copiesEvolveIndependently : Obligations.CopiesEvolveIndependently := by
  intro s d src x acts rest hne hd hc hr hp
  obtain ⟨t, ht, htu, hpu, hpt⟩ := run_of_issued_cons rfl hp (exec_copy (s := s.withPending _) hd hc)
  have hdt := run_context? (fun a ha => (hr a ha).1) hpu (State.context?_setSlot_self hd _) htu
  have hst := run_context? (fun a ha => (hr a ha).2) hpu ((State.context?_setSlot_other hne.symm _).trans hc) htu
  rw [← absorbBytes_append] at hdt hst
  exact ⟨_, run_succ_of_digest ht hpt hdt, finalize_absorbBytes_fresh _, hdt, hst⟩

/-! ## The one-shot digest (R87, R192) -/

/-- ONESHOT from every state with the slot in range: RIPEMD-160 stands in DOUT, and the host has read nothing. -/
theorem run_issue_oneshot {s : State} {c : SlotIdx} {m : List Byte} {rest : List HostAction} (hc : c.val < s.nctx)
    (hp : s.pending = issue (expandOneshot c m) ++ rest) :
    ∃ t, run (issue (expandOneshot c m)).length s = .next t ∧ t.pending = rest ∧ t.dout = rmd160Words m
      ∧ t.status.dv = true ∧ t.readings = s.readings := by
  obtain ⟨_, hflat, _, _, _, hl, _⟩ := updateExpansion c m
  obtain ⟨hbytes, hkeeps⟩ : bytesFor c (issue (expandUpdate c m)) = (updateChunks m).flatten
      ∧ ∀ a ∈ issue (expandUpdate c m), a.replacesSlot c = false := bytesFor_issue_absorbs c hl
  have hissue : issue (expandOneshot c m) = .command (encode (.init c)) :: issue (expandUpdate c m)
      ++ [.command (encode (.digest c))] := by
    simp [issue, expandOneshot, expandNew]
  have hpending : s.pending = .command (encode (.init c)) :: issue (expandUpdate c m)
      ++ .command (encode (.digest c)) :: rest := by
    simp [hp, hissue]
  have hlen : (issue (expandOneshot c m)).length = (issue (expandUpdate c m)).length + 2 := by simp [hissue]
  obtain ⟨t, ht, hpt, hdout, _, hdv, _⟩ := digestOfAStreamIsRmd160 s c _ rest hc hkeeps hpending
  rw [← hlen] at ht
  rw [hbytes, hflat] at hdout
  exact ⟨t, ht, hpt, hdout, hdv, run_issue_readings hp ht⟩

/-- Settles O54: ONESHOT leaves RIPEMD-160 in DOUT, and the five reads return it. -/
theorem oneshotReadsTheDigest : Obligations.OneshotReadsTheDigest := by
  intro s c m rest hc hp
  rw [oneshotActions, List.append_assoc] at hp
  obtain ⟨u, hu, hpu, hdout, hdv, hread⟩ := run_issue_oneshot hc hp
  obtain ⟨t, ht, hpt⟩ := run_completes readDigest hpu
  refine ⟨rfl, t, ?_, hpt, ?_⟩
  · rw [oneshotActions, List.length_append, run_add hu, ht]
  · rw [run_readDout_readings hpu hdv ht, hdout, hread]

end Sys2Proof.Machine
end

section
/-! SUPPORT. The checks of a command (R202), what failing and passing them writes (R203, R204), and STICKY over steps and runs (R205). -/

namespace Sys2Proof.Machine

/-! ## The checks of the slots a command names (R202, checks 3 and 4) -/

/-- The code of the checks of a slot that is read: its range, then its validity. -/
def State.readCode (s : State) (c : SlotIdx) : ResultCode :=
  if s.nctx ≤ c.val then .errCtx else if s.valid c = false then .errNoctx else .ok

/-- The code of a command's first failing check, OK when none fails. -/
def State.checkCode (s : State) : Instr → ResultCode
  | .init c => if s.nctx ≤ c.val then .errCtx else .ok
  | .absorb c _ => s.readCode c
  | .digest c => s.readCode c
  | .copy d src => if s.nctx ≤ d.val then .errCtx else s.readCode src

/-- The read operand answers a context exactly when its checks pass, and else fails with their code. -/
theorem State.readCode_cases (s : State) (c : SlotIdx) :
    (s.readCode c ≠ .ok ∧ s.readSlot c = .error (s.readCode c))
    ∨ (s.readCode c = .ok ∧ ∃ ctx, s.context? c = some ctx) := by
  rcases s.readSlot_cases c with ⟨ctx, hc, _⟩ | ⟨hle, hr⟩ | ⟨hlt, hn, hr⟩
  · have hlt := State.lt_nctx_of_context? hc
    exact .inr ⟨by simp [State.readCode, State.valid, hc, hlt], ctx, hc⟩
  · have hcode : s.readCode c = .errCtx := by simp [State.readCode, hle]
    exact .inl (by simp [hcode, hr])
  · have hcode : s.readCode c = .errNoctx := by simp [State.readCode, State.valid, hn, hlt]
    exact .inl (by simp [hcode, hr])

/-- A command whose checks fail raises their code, and one whose checks pass completes a state with the STICKY it
started from (R203, R204). -/
theorem exec_checkCode_cases (i : Instr) (s : State) :
    (s.checkCode i ≠ .ok ∧ exec i s = .next (s.raiseErr (s.checkCode i)))
    ∨ (s.checkCode i = .ok ∧ ∃ t : State, exec i s = .next t.complete ∧ t.status.sticky = s.status.sticky) := by
  cases i with
  | init c =>
    by_cases hc : c.val < s.nctx
    · exact .inr ⟨by simp [State.checkCode, hc], _, exec_init hc, rfl⟩
    · have hcode : s.checkCode (.init c) = .errCtx := if_pos (Nat.not_lt.mp hc)
      exact .inl ⟨by simp [hcode], hcode ▸ exec_init_of_nctx_le (Nat.not_lt.mp hc)⟩
  | absorb c bytes =>
    rcases s.readCode_cases c with ⟨hcode, hr⟩ | ⟨hcode, ctx, hc⟩
    · exact .inl ⟨hcode, exec_absorb_of_error hr bytes⟩
    · exact .inr ⟨hcode, _, exec_absorb hc bytes, rfl⟩
  | digest c =>
    rcases s.readCode_cases c with ⟨hcode, hr⟩ | ⟨hcode, ctx, hc⟩
    · exact .inl ⟨hcode, exec_digest_of_error hr⟩
    · exact .inr ⟨hcode, _, exec_digest hc, rfl⟩
  | copy d src =>
    by_cases hd : d.val < s.nctx
    · have hsrc : s.checkCode (.copy d src) = s.readCode src := if_neg (Nat.not_le.mpr hd)
      rw [hsrc]
      rcases s.readCode_cases src with ⟨hcode, hr⟩ | ⟨hcode, ctx, hc⟩
      · exact .inl ⟨hcode, exec_copy_of_error hd hr⟩
      · exact .inr ⟨hcode, _, exec_copy hd hc, rfl⟩
    · have hcode : s.checkCode (.copy d src) = .errCtx := if_pos (Nat.not_lt.mp hd)
      exact .inl ⟨by simp [hcode], hcode ▸ exec_copy_of_nctx_le (Nat.not_lt.mp hd) src⟩

/-! ## The checks of a word (R202) -/

/-- An illegal word fails the check its verdict names. -/
theorem expectedCode_of_illegal {cw : U64} {e : Illegal} (hd : decode cw = .illegal e) (s : State) :
    expectedCode cw s = illegalCode e := by
  by_cases hop : opcField cw ∈ [0x01#8, 0x02#8, 0x03#8, 0x04#8]
  · have hsome : byOpcode cw ≠ none := fun hnone => (byOpcode_eq_none_iff cw).mp hnone hop
    have hr : rsvField cw ≠ 0#14 := by
      intro hr
      obtain ⟨i, hi⟩ := Option.ne_none_iff_exists'.mp hsome
      simp [(decode_eq_command_iff cw i).mpr ⟨hi, hr⟩] at hd
    cases (decode_of_rsvField_ne_zero hsome hr).symm.trans hd
    rw [expectedCode, if_neg (not_not_intro hop), if_pos hr, illegalCode]
  · cases ((decode_eq_illegal_opcode_iff cw).mpr ((byOpcode_eq_none_iff cw).mpr hop)).symm.trans hd
    rw [expectedCode, if_pos hop, illegalCode]

/-- A word that is a command is left with the command's own checks. -/
theorem expectedCode_of_command {cw : U64} {i : Instr} (hd : decode cw = .command i) (s : State) :
    expectedCode cw s = s.checkCode i := by
  obtain ⟨hi, hrsv⟩ := (decode_eq_command_iff cw i).mp hd
  cases i with
  | init c =>
    obtain ⟨hop, hctx⟩ := (byOpcode_eq_init_iff cw c).mp hi
    simp [expectedCode, State.checkCode, hrsv, hop, hctx]
  | absorb c bytes =>
    obtain ⟨hop, hctx, _⟩ := (byOpcode_eq_absorb_iff cw c bytes).mp hi
    simp [expectedCode, State.checkCode, State.readCode, hrsv, hop, hctx]
  | digest c =>
    obtain ⟨hop, hctx⟩ := (byOpcode_eq_digest_iff cw c).mp hi
    simp [expectedCode, State.checkCode, State.readCode, hrsv, hop, hctx]
  | copy d src =>
    obtain ⟨hop, hctx, hsrc⟩ := (byOpcode_eq_copy_iff cw d src).mp hi
    simp [expectedCode, State.checkCode, State.readCode, hrsv, hop, hctx, hsrc]

/-- A word whose checks fail raises the code of the first that fails, and one whose checks pass completes a state with
the STICKY it started from (R203, R204). -/
theorem runWord_expectedCode_cases (cw : U64) (s : State) :
    (expectedCode cw s ≠ .ok ∧ runWord cw s = .next (s.raiseErr (expectedCode cw s)))
    ∨ (expectedCode cw s = .ok ∧ ∃ t : State, runWord cw s = .next t.complete ∧ t.status.sticky = s.status.sticky) := by
  cases hd : decode cw with
  | illegal e =>
    rw [expectedCode_of_illegal hd, runWord_of_illegal hd]
    exact .inl ⟨by cases e <;> simp [illegalCode], rfl⟩
  | command i =>
    have hrun : runWord cw s = exec i s := by simp [runWord, hd]
    rw [expectedCode_of_command hd, hrun]
    exact exec_checkCode_cases i s

/-- Settles O28: a failing word writes the code, and a completed one OK. -/
theorem checksRunInOrder : Obligations.ChecksRunInOrder := by
  intro cw s
  rcases runWord_expectedCode_cases cw s with ⟨_, hrun⟩ | ⟨hok, t, hrun, _⟩
  · exact ⟨_, hrun, rfl⟩
  · exact ⟨_, hrun, hok.symm⟩

/-- Settles O29: a word that does not pass its checks raises their code. -/
theorem failureChangesOnlyStatus : Obligations.FailureChangesOnlyStatus := by
  intro cw s hfail
  rcases runWord_expectedCode_cases cw s with ⟨_, hrun⟩ | ⟨hok, _⟩
  · exact hrun
  · exact absurd hok hfail

/-- Settles O30: a word that passes its checks completes. -/
theorem successKeepsSticky : Obligations.SuccessKeepsSticky := by
  intro cw s hok
  rcases runWord_expectedCode_cases cw s with ⟨hfail, _⟩ | ⟨_, t, hrun, hsticky⟩
  · exact absurd hok hfail
  · exact ⟨_, hrun, rfl, rfl, hsticky⟩

/-! ## STICKY over a step (R205) -/

/-- Everything a step other than a reset can do to LAST and STICKY: leave both, record a failure, or record a
success. -/
theorem step_sticky_cases {s t : State} (hreset : s.pending.head? ≠ some .reset) (hx : step s = .next t) :
    (t.status.last = s.status.last ∧ t.status.sticky = s.status.sticky)
    ∨ (t.status.last ≠ .ok ∧ t.status.sticky = true)
    ∨ (t.status.last = .ok ∧ t.status.sticky = s.status.sticky) := by
  rcases step_cases hx with ⟨_, rfl⟩ | ⟨cw, rest, _, hw⟩ | ⟨rest, _, rfl⟩ | ⟨w, rest, _, rfl⟩ | ⟨rest, hp, _⟩
  · exact .inl ⟨rfl, rfl⟩
  · rcases runWord_expectedCode_cases cw (s.withPending rest) with ⟨hfail, hrun⟩ | ⟨_, u, hrun, hsticky⟩ <;>
      cases hrun.symm.trans hw
    · exact .inr (.inl ⟨hfail, rfl⟩)
    · exact .inr (.inr ⟨rfl, hsticky⟩)
  · exact .inl ⟨rfl, rfl⟩
  · exact .inl (by simp)
  · exact absurd (by simp [hp]) hreset

/-- A recorded failure is sticky: the clause `sticky_of_last` of `State.Inv`. -/
def State.StickyOfLast (s : State) : Prop := s.status.last ≠ .ok → s.status.sticky = true

/-- A step other than a reset keeps a recorded failure sticky. -/
theorem step_stickyOfLast {s t : State} (hi : s.StickyOfLast) (hreset : s.pending.head? ≠ some .reset)
    (hx : step s = .next t) : t.StickyOfLast := by
  intro hlast
  rcases step_sticky_cases hreset hx with ⟨hl, hs⟩ | ⟨_, hs⟩ | ⟨hl, _⟩
  · exact hs.trans (hi (hl ▸ hlast))
  · exact hs
  · exact absurd hl hlast

/-- After a step other than a reset, STICKY is 1 exactly when it was, or when LAST is not OK. -/
theorem step_sticky_iff {s t : State} (hi : s.StickyOfLast) (hreset : s.pending.head? ≠ some .reset)
    (hx : step s = .next t) : t.status.sticky = true ↔ s.status.sticky = true ∨ t.status.last ≠ .ok := by
  have ht : t.StickyOfLast := step_stickyOfLast hi hreset hx
  refine ⟨fun hsticky => ?_, fun h => h.elim (fun hsticky => ?_) ht⟩
  · rcases step_sticky_cases hreset hx with ⟨_, hs⟩ | ⟨hl, _⟩ | ⟨_, hs⟩
    · exact .inl (hs ▸ hsticky)
    · exact .inr hl
    · exact .inl (hs ▸ hsticky)
  · rcases step_sticky_cases hreset hx with ⟨_, hs⟩ | ⟨_, hs⟩ | ⟨_, hs⟩
    · exact hs.trans hsticky
    · exact hs
    · exact hs.trans hsticky

/-! ## STICKY over a run (R205) -/

/-- A step takes the oldest interaction off the queue, if there is one. -/
theorem step_pending {s t : State} (hx : step s = .next t) : t.pending = s.pending.tail := by
  cases hp : s.pending with
  | nil => rw [step_of_nil hp] at hx; cases hx; exact hp
  | cons a rest => rw [step_of_cons hp] at hx; exact perform_pending hx

/-- LAST is not OK in one of the states of the run of `n` steps, its first and its last among them. -/
def State.FailureShown (n : Nat) (s : State) : Prop :=
  ∃ k, k ≤ n ∧ ∃ u, run k s = .next u ∧ u.status.last ≠ .ok

/-- A state that shows a failure shows it in every run it starts. -/
theorem State.failureShown_of_last {s : State} (hl : s.status.last ≠ .ok) (n : Nat) : s.FailureShown n :=
  ⟨0, n.zero_le, s, rfl, hl⟩

/-- The run of no step shows what its one state shows. -/
theorem State.failureShown_zero (s : State) : s.FailureShown 0 ↔ s.status.last ≠ .ok := by
  refine ⟨?_, fun hl => State.failureShown_of_last hl 0⟩
  rintro ⟨k, hk, u, hu, hl⟩
  obtain rfl : k = 0 := Nat.le_zero.mp hk
  cases hu
  exact hl

/-- A run shows a failure in its first state or from its second on. -/
theorem State.failureShown_succ {s u : State} (hu : step s = .next u) (n : Nat) :
    s.FailureShown (n + 1) ↔ s.status.last ≠ .ok ∨ u.FailureShown n := by
  constructor
  · rintro ⟨k, hk, v, hv, hl⟩
    cases k with
    | zero => cases hv; exact .inl hl
    | succ k => exact .inr ⟨k, by omega, v, run_succ hu k ▸ hv, hl⟩
  · rintro (hl | ⟨k, hk, v, hv, hl⟩)
    · exact State.failureShown_of_last hl _
    · exact ⟨k + 1, by omega, v, (run_succ hu k).trans hv, hl⟩

/-- After a run without reset, STICKY is 1 exactly when it was at its start, or when the run shows a failure. -/
theorem run_sticky_iff {n : Nat} {s t : State} (hi : s.StickyOfLast) (hreset : ∀ a ∈ s.pending.take n, a ≠ .reset)
    (hx : run n s = .next t) : t.status.sticky = true ↔ s.status.sticky = true ∨ s.FailureShown n := by
  induction n generalizing s with
  | zero =>
    cases hx
    rw [State.failureShown_zero, or_iff_left_of_imp hi]
  | succ n ih =>
    obtain ⟨u, hu, hx⟩ := run_succ_cases hx
    obtain ⟨hhead, htail⟩ : s.pending.head? ≠ some .reset ∧ ∀ a ∈ s.pending.tail.take n, a ≠ .reset := by
      cases hp : s.pending <;> simp_all
    rw [ih (step_stickyOfLast hi hhead hu) (step_pending hu ▸ htail) hx]
    calc u.status.sticky = true ∨ u.FailureShown n
      _ ↔ s.status.sticky = true ∨ u.status.last ≠ .ok ∨ u.FailureShown n := by
        rw [step_sticky_iff hi hhead hu, or_assoc]
      _ ↔ s.status.sticky = true ∨ u.FailureShown n := by
        rw [or_iff_right_of_imp fun hl => State.failureShown_of_last hl n]
      _ ↔ s.status.sticky = true ∨ s.FailureShown (n + 1) := by
        rw [State.failureShown_succ hu, ← or_assoc, or_iff_left_of_imp hi]

/-- Settles O31: `run_sticky_iff` from a state with STICKY 0 and LAST OK, `step_sticky_iff`, and what the reset event
writes. -/
theorem stickyRecordsFailure : Obligations.StickyRecordsFailure := by
  refine ⟨fun n s t hreset hsticky hlast hx => ?_, fun s t hreset hx hsticky => ?_, fun s t rest hp hx => ?_⟩
  · have hi : s.StickyOfLast := fun hl => absurd hlast hl
    rw [run_sticky_iff hi hreset hx, hsticky]
    exact or_iff_right Bool.false_ne_true
  · exact (step_sticky_iff (fun _ => hsticky) hreset hx).mpr (.inl hsticky)
  · rw [step_of_cons hp] at hx
    cases hx
    exact ⟨rfl, rfl⟩

end Sys2Proof.Machine
end

section
/-! SUPPORT. What reset clears (R230), and how long a slot stays empty (R25, R233). -/

namespace Sys2Proof.Machine

/-! ## The reset event (R230) -/

/-- A slot without a context is not valid. -/
theorem State.valid_of_none {s : State} {c : SlotIdx} (hc : s.context? c = none) : s.valid c = false := by
  simp [State.valid, hc]

/-- The STATUS word after reset has every bit 0 (R28). -/
theorem Status.reset_word : Status.reset.word = 0#32 := by decide

/-- Settles O38: the reset event empties every slot and writes the STATUS of reset, which is the word 0. -/
theorem engineResetClears : Obligations.EngineResetClears := by
  refine ⟨fun s rest hp => ?_, fun N => ?_⟩
  · exact ⟨(s.withPending rest).engineReset, step_of_cons hp, by simp, fun c => State.valid_of_none (by simp),
      Status.reset_word, rfl, rfl, rfl, rfl, rfl, rfl⟩
  · exact ⟨by simp, fun c => State.valid_of_none (by simp), Status.reset_word⟩

/-! ## An empty slot over a step (R25, R233) -/

/-- A command leaves an empty slot empty, unless it is an INIT of it or a COPY into it, and completes. -/
theorem exec_context?_of_none {i : Instr} {s t : State} {c : SlotIdx} (hc : s.context? c = none)
    (hx : exec i s = .next t) :
    t.context? c = none ∨ t.status.last = .ok ∧ (i = .init c ∨ ∃ src, i = .copy c src) := by
  rcases exec_cases hx with ⟨code, _, rfl⟩ | ⟨d, rfl, _, rfl⟩ | ⟨d, bytes, ctx, rfl, hd, rfl⟩ | ⟨d, ctx, rfl, _, rfl⟩
    | ⟨d, src, ctx, rfl, _, _, rfl⟩
  · exact .inl hc
  · by_cases hcd : c = d
    · exact .inr ⟨rfl, .inl (hcd ▸ rfl)⟩
    · exact .inl ((State.context?_setSlot_other hcd _).trans hc)
  · have hcd : c ≠ d := by
      rintro rfl
      cases hc.symm.trans hd
    exact .inl ((State.context?_setSlot_other hcd _).trans hc)
  · exact .inl hc
  · by_cases hcd : c = d
    · exact .inr ⟨rfl, .inr ⟨src, hcd ▸ rfl⟩⟩
    · exact .inl ((State.context?_setSlot_other hcd _).trans hc)

/-- A command word leaves an empty slot empty, unless it is an INIT of it or a COPY into it and passes its checks. -/
theorem runWord_context?_of_none {cw : U64} {s t : State} {c : SlotIdx} (hc : s.context? c = none)
    (hx : runWord cw s = .next t) :
    t.context? c = none
    ∨ expectedCode cw s = .ok ∧ (decode cw = .command (.init c) ∨ ∃ src, decode cw = .command (.copy c src)) := by
  obtain ⟨u, hu, hcode⟩ := checksRunInOrder cw s
  cases hx.symm.trans hu
  rcases runWord_cases hx with ⟨e, _, rfl⟩ | ⟨i, hd, hi⟩
  · exact .inl hc
  · rcases exec_context?_of_none hc hi with hn | ⟨hlast, rfl | ⟨src, rfl⟩⟩
    · exact .inl hn
    · exact .inr ⟨hcode.symm.trans hlast, .inl hd⟩
    · exact .inr ⟨hcode.symm.trans hlast, .inr ⟨src, hd⟩⟩

/-- Settles O60: only a command word can give the slot a context, and `runWord_context?_of_none` says which. -/
theorem emptySlotStaysEmptyUntilTargeted : Obligations.EmptySlotStaysEmptyUntilTargeted := by
  intro s t c hc hx
  rcases step_cases hx with ⟨_, rfl⟩ | ⟨cw, rest, hp, hw⟩ | ⟨rest, _, rfl⟩ | ⟨w, rest, _, rfl⟩ | ⟨rest, _, rfl⟩
  · exact .inl hc
  · rcases runWord_context?_of_none (s := s.withPending rest) hc hw with hn | ⟨hok, htarget⟩
    · exact .inl hn
    · exact .inr ⟨cw, rest, hp, hok, htarget⟩
  · exact .inl hc
  · exact .inl (((s.withPending rest).context?_readDout c w).trans hc)
  · exact .inl (State.context?_engineReset _ c)

/-! ## An empty slot over a run from reset (R233) -/

/-- A step whose interaction, unless it is the reset event, gives the slot no new context leaves an empty slot empty. -/
theorem step_context?_of_none {s t : State} {c : SlotIdx} (hc : s.context? c = none)
    (hhead : ∀ a, s.pending.head? = some a → a.replacesSlot c = true → a = .reset) (hx : step s = .next t) :
    t.context? c = none := by
  rcases emptySlotStaysEmptyUntilTargeted s t c hc hx with hn | ⟨cw, rest, hp, _, htarget⟩
  · exact hn
  · have hreplaces : (HostAction.command cw).replacesSlot c = true := by
      rcases htarget with hd | ⟨src, hd⟩ <;> simp [HostAction.replacesSlot, hd]
    cases hhead (.command cw) (by simp [hp]) hreplaces

/-- A run in which only reset events replace the slot's context leaves an empty slot empty. -/
theorem run_context?_of_none {n : Nat} {s t : State} {c : SlotIdx} (hc : s.context? c = none)
    (hr : ∀ a ∈ s.pending.take n, a.replacesSlot c = true → a = .reset) (hx : run n s = .next t) :
    t.context? c = none := by
  induction n generalizing s with
  | zero => cases hx; exact hc
  | succ n ih =>
    obtain ⟨u, hu, hx⟩ := run_succ_cases hx
    obtain ⟨hhead, htail⟩ : (∀ a, s.pending.head? = some a → a.replacesSlot c = true → a = .reset)
        ∧ ∀ a ∈ s.pending.tail.take n, a.replacesSlot c = true → a = .reset := by
      cases hp : s.pending with
      | nil => simp
      | cons a rest => simpa [hp] using hr
    exact ih (step_context?_of_none hc hhead hu) (step_pending hu ▸ htail) hx

/-- No step changes NCTX. -/
theorem step_nctx {s t : State} (hx : step s = .next t) : t.nctx = s.nctx := by
  rcases step_cases hx with ⟨_, rfl⟩ | ⟨cw, rest, _, hw⟩ | ⟨rest, _, rfl⟩ | ⟨w, rest, _, rfl⟩ | ⟨rest, _, rfl⟩
  · rfl
  · rcases runWord_cases hw with ⟨e, _, rfl⟩ | ⟨i, _, hi⟩
    · rfl
    · exact exec_nctx (s := s.withPending rest) hi
  all_goals simp

/-- No run changes NCTX. -/
theorem run_nctx {n : Nat} {s t : State} (hx : run n s = .next t) : t.nctx = s.nctx :=
  run_keeps (P := fun u => u.nctx = s.nctx) (fun _ _ hu hstep => (step_nctx hstep).trans hu) rfl hx

/-- Settles O39: the slot is empty at reset and stays so, so it cannot be read, and each command that reads it raises
ERR_NOCTX. -/
theorem emptySlotsFailUntilTargeted : Obligations.EmptySlotsFailUntilTargeted := by
  intro N n acts t c hcN hr hx
  have hnctx : t.nctx = N := (run_nctx hx).trans (State.nctx_resetWith N)
  have hempty : t.context? c = none := run_context?_of_none (by simp) hr hx
  have hread : t.readSlot c = .error .errNoctx := State.readSlot_of_none (hnctx ▸ hcN) hempty
  exact ⟨exec_absorb_of_error hread, exec_digest_of_error hread, fun d hd => exec_copy_of_error (hnctx ▸ hd) hread⟩

end Sys2Proof.Machine
end

section
/-! SUPPORT. The decoder's obligations: the encoder's words (R70, R77), the verdicts (R82), the opcode map (R78). -/

namespace Sys2Proof.Machine

open Sys2Proof.Laws.EncodeLegal (opcodeOf)

/-- Settles O2: the fields of the canonical word are the command's own (`decode_encode`). -/
theorem decodeOfEncodeIsIdentity : Obligations.DecodeOfEncodeIsIdentity := fun _ => decode_encode

/-- The words that are commands: a legal opcode and no reserved bit (R77, R82). -/
theorem exists_decode_eq_command_iff (cw : U64) :
    (∃ i, decode cw = .command i) ↔ opcField cw ∈ [0x01#8, 0x02#8, 0x03#8, 0x04#8] ∧ rsvField cw = 0#14 := by
  have hsome : (∃ i, byOpcode cw = some i) ↔ opcField cw ∈ [0x01#8, 0x02#8, 0x03#8, 0x04#8] := by
    rw [← Option.ne_none_iff_exists', ne_eq, byOpcode_eq_none_iff, not_not]
  simp only [decode_eq_command_iff, exists_and_right, hsome]

/-- Settles O4: what a word decodes to is well formed, and which words are commands is said once. -/
theorem decodedCommandsAreWellFormed : Obligations.DecodedCommandsAreWellFormed :=
  fun cw => ⟨fun _ => wf_of_decode, exists_decode_eq_command_iff cw⟩

/-! ## The opcode map (R78) -/

/-- A word that decodes to a command carries the command's opcode. -/
theorem opcField_of_decode {cw : U64} {i : Instr} (hd : decode cw = .command i) : opcField cw = opcodeOf i := by
  obtain ⟨hi, _⟩ := (decode_eq_command_iff cw i).mp hd
  cases i with
  | init c => exact ((byOpcode_eq_init_iff ..).mp hi).1
  | absorb c bytes => exact ((byOpcode_eq_absorb_iff ..).mp hi).1
  | digest c => exact ((byOpcode_eq_digest_iff ..).mp hi).1
  | copy d src => exact ((byOpcode_eq_copy_iff ..).mp hi).1

/-- A row's mask keeps OPC and RSV, and nothing else. -/
theorem and_rowMask_eq_packWord_iff (cw : U64) (opc : BitVec 8) :
    cw &&& rowMask = packWord 0#32 0#14 0#2 0 0 opc ↔ opcField cw = opc ∧ rsvField cw = 0#14 := by
  have hm : rowMask = packWord 0#32 (BitVec.allOnes 14) 0#2 0 0 (BitVec.allOnes 8) := by decide
  obtain ⟨hdata, hrsv, hnbm1, hsrc, hctx, hopc⟩ := (eq_packWord_iff ..).mp hm
  rw [and_eq_packWord_iff, BitVec.extractLsb'_and, hdata, hrsv, hnbm1, hsrc, hctx, hopc]
  simp only [BitVec.and_zero, BitVec.and_allOnes, slotIdx_and_zero, true_and]
  exact and_comm

/-- A row holds one legal opcode, that of the commands with the row's mnemonic. -/
theorem opcodeRow_cases {row : OpcodeRow} (hrow : row ∈ opcodeRows) :
    ∃ opc ∈ [0x01#8, 0x02#8, 0x03#8, 0x04#8], row.mask = rowMask ∧ row.pattern = packWord 0#32 0#14 0#2 0 0 opc
      ∧ ∀ i : Instr, i.mnemonic = row.mnemonic ↔ opcodeOf i = opc := by
  simp only [opcodeRows, List.mem_cons, List.not_mem_nil, or_false] at hrow
  rcases hrow with rfl | rfl | rfl | rfl
  · exact ⟨0x01#8, by decide, rfl, by decide, fun i => by cases i <;> simp [Instr.mnemonic, opcodeOf]⟩
  · exact ⟨0x02#8, by decide, rfl, by decide, fun i => by cases i <;> simp [Instr.mnemonic, opcodeOf]⟩
  · exact ⟨0x03#8, by decide, rfl, by decide, fun i => by cases i <;> simp [Instr.mnemonic, opcodeOf]⟩
  · exact ⟨0x04#8, by decide, rfl, by decide, fun i => by cases i <;> simp [Instr.mnemonic, opcodeOf]⟩

/-- Settles O5: the masked word is the row's pattern when the word has the row's opcode and no reserved bit, and those
are the words of the row's commands. -/
theorem opcodeMapSelectsCommands : Obligations.OpcodeMapSelectsCommands := by
  intro row hrow cw
  obtain ⟨opc, hlegal, hmask, hpattern, hmnemonic⟩ := opcodeRow_cases hrow
  rw [hmask, hpattern, and_rowMask_eq_packWord_iff]
  constructor
  · rintro ⟨rfl, hrsv⟩
    obtain ⟨i, hd⟩ := (exists_decode_eq_command_iff cw).mpr ⟨hlegal, hrsv⟩
    exact ⟨i, hd, (hmnemonic i).mpr (opcField_of_decode hd).symm⟩
  · rintro ⟨i, hd, hi⟩
    exact ⟨(opcField_of_decode hd).trans ((hmnemonic i).mp hi), ((decode_eq_command_iff cw i).mp hd).2⟩

end Sys2Proof.Machine
end

section
/-! SUPPORT. What each command leaves as it was (R35), DOUT, DV and DCTX (R206), and the machine's invariant over a step. -/

namespace Sys2Proof.Machine

/-- A word that decodes to a command runs it. -/
theorem runWord_of_command {cw : U64} {i : Instr} (hd : decode cw = .command i) (s : State) :
    runWord cw s = exec i s := by
  simp [runWord, hd]

/-! ## DOUT, DV and DCTX over a command, a word and a step (R206) -/

/-- DOUT, DV and DCTX are in `t` what they are in `s`. -/
def State.KeepsDigest (s t : State) : Prop :=
  t.dout = s.dout ∧ t.status.dv = s.status.dv ∧ t.status.dctx = s.status.dctx

/-- DOUT, DV and DCTX are in `t` what DIGEST of the context `ctx` of slot `c` writes. -/
def State.HoldsDigest (t : State) (c : SlotIdx) (ctx : Context) : Prop :=
  t.dout = finalize ctx ∧ t.status.dv = true ∧ t.status.dctx = c

/-- A command keeps DOUT, DV and DCTX, or is a DIGEST of a valid slot and writes them. -/
theorem exec_digest_cases {i : Instr} {s t : State} (hx : exec i s = .next t) :
    s.KeepsDigest t ∨ ∃ c ctx, i = .digest c ∧ s.context? c = some ctx ∧ t.HoldsDigest c ctx := by
  rcases exec_cases hx with ⟨_, _, rfl⟩ | ⟨_, _, _, rfl⟩ | ⟨_, _, _, _, _, rfl⟩ | ⟨c, ctx, hi, hc, rfl⟩
    | ⟨_, _, _, _, _, _, rfl⟩
  · exact .inl ⟨rfl, rfl, rfl⟩
  · exact .inl ⟨rfl, rfl, rfl⟩
  · exact .inl ⟨rfl, rfl, rfl⟩
  · exact .inr ⟨c, ctx, hi, hc, rfl, rfl, rfl⟩
  · exact .inl ⟨rfl, rfl, rfl⟩

/-- A command word keeps DOUT, DV and DCTX, or is a DIGEST of a valid slot and writes them. -/
theorem runWord_digest_cases {cw : U64} {s t : State} (hx : runWord cw s = .next t) :
    s.KeepsDigest t
    ∨ ∃ c ctx, decode cw = .command (.digest c) ∧ s.context? c = some ctx ∧ t.HoldsDigest c ctx := by
  rcases runWord_cases hx with ⟨e, _, rfl⟩ | ⟨i, hd, hi⟩
  · exact .inl ⟨rfl, rfl, rfl⟩
  · rcases exec_digest_cases hi with hkeeps | ⟨c, ctx, rfl, hc, ht⟩
    · exact .inl hkeeps
    · exact .inr ⟨c, ctx, hd, hc, ht⟩

/-- A step keeps DOUT, DV and DCTX, or clears STATUS, or is a DIGEST of a valid slot and writes them. -/
theorem step_digest_cases {s t : State} (hx : step s = .next t) :
    s.KeepsDigest t ∨ t.status = Status.reset
    ∨ ∃ cw rest c ctx, s.pending = .command cw :: rest ∧ decode cw = .command (.digest c)
        ∧ s.context? c = some ctx ∧ t.HoldsDigest c ctx := by
  rcases step_cases hx with ⟨_, rfl⟩ | ⟨cw, rest, hp, hw⟩ | ⟨rest, _, rfl⟩ | ⟨w, rest, _, rfl⟩ | ⟨rest, _, rfl⟩
  · exact .inl ⟨rfl, rfl, rfl⟩
  · rcases runWord_digest_cases hw with hkeeps | ⟨c, ctx, hd, hc, ht⟩
    · exact .inl hkeeps
    · exact .inr (.inr ⟨cw, rest, c, ctx, hp, hd, hc, ht⟩)
  · exact .inl ⟨rfl, rfl, rfl⟩
  · exact .inl (by simp [State.KeepsDigest])
  · exact .inr (.inl rfl)

/-- Settles O32: a word writes the three exactly when it is a DIGEST of a valid slot, and the reset event clears STATUS. -/
theorem digestOutputsChangeOnlyByDigest : Obligations.DigestOutputsChangeOnlyByDigest := by
  refine ⟨fun cw s t hx => ⟨fun c ctx hd hc => ?_, fun hinvalid => ?_⟩, fun s t rest hp hx => ?_⟩
  · have hexec : exec (.digest c) s = .next t := (runWord_of_command hd s).symm.trans hx
    cases (exec_digest hc).symm.trans hexec
    exact ⟨rfl, rfl, rfl⟩
  · rcases runWord_digest_cases hx with hkeeps | ⟨c, ctx, hd, hc, _⟩
    · exact hkeeps
    · cases (State.context?_eq_none (hinvalid c hd)).symm.trans hc
  · rw [step_of_cons hp] at hx
    cases hx
    exact ⟨rfl, rfl⟩

/-- Settles O59: of the three things a step can do to DV, clearing STATUS leaves it 0. -/
theorem stepKeepsOrWritesTheDigest : Obligations.StepKeepsOrWritesTheDigest := by
  intro s t hx hdv
  rcases step_digest_cases hx with ⟨hdout, hkeeps, hdctx⟩ | hreset | ⟨cw, rest, c, ctx, hp, hd, hc, hdout, _, rfl⟩
  · exact .inl ⟨hdout, hkeeps.symm.trans hdv, hdctx⟩
  · simp [hreset, Status.reset] at hdv
  · exact .inr ⟨cw, rest, ctx, hp, hd, hc, hdout⟩

/-! ## The frame of a command (R35) -/

/-- A command that ends with LAST OK keeps STICKY (R204). -/
theorem exec_sticky_of_ok {i : Instr} {s t : State} (hx : exec i s = .next t) (hok : t.status.last = .ok) :
    t.status.sticky = s.status.sticky := by
  rcases exec_checkCode_cases i s with ⟨hfail, hrun⟩ | ⟨_, u, hrun, hsticky⟩ <;> cases hrun.symm.trans hx
  · exact absurd hok hfail
  · exact hsticky

/-- A command draws no free word. -/
theorem exec_draws {i : Instr} {s t : State} (hx : exec i s = .next t) : t.draws = s.draws := by
  rcases exec_cases hx with ⟨_, _, rfl⟩ | ⟨_, _, _, rfl⟩ | ⟨_, _, _, _, _, rfl⟩ | ⟨_, _, _, _, rfl⟩
    | ⟨_, _, _, _, _, _, rfl⟩
  all_goals rfl

/-- Settles O27: one lemma for each part of the state. -/
theorem commandFrame : Obligations.CommandFrame := by
  intro i s t hx
  obtain ⟨hpending, hreadings⟩ := exec_host hx
  refine ⟨fun c => exec_context?_of_not_mem_slotsWritten hx, exec_nctx hx, fun hne => ?_, exec_sticky_of_ok hx,
    hpending, hreadings, exec_draws hx⟩
  rcases exec_digest_cases hx with hkeeps | ⟨c, _, hi, _⟩
  · exact hkeeps
  · exact absurd hi (hne c)

/-! ## The machine's invariant -/

/-- DCTX names a slot, 0 while DV is 0: the clauses `dctx_in_range` and `dctx_of_dv` of `State.Inv`. -/
def State.DctxInv (s : State) : Prop := s.inRange s.status.dctx = true ∧ (s.status.dv = false → s.status.dctx = 0)

/-- STATUS after reset meets it wherever there is a slot. -/
theorem State.dctxInv_of_reset {s : State} (hn : 1 ≤ s.nctx) (hs : s.status = Status.reset) : s.DctxInv := by
  have hdctx : s.status.dctx = 0 := by simp [hs, Status.reset]
  exact ⟨(s.inRange_iff _).mpr (by rw [hdctx]; exact hn), fun _ => hdctx⟩

/-- Every step keeps it: a DIGEST that writes DCTX sets DV, and names a slot that holds a context. -/
theorem step_dctxInv {s t : State} (hn : 1 ≤ s.nctx) (hi : s.DctxInv) (hx : step s = .next t) : t.DctxInv := by
  have hnctx : t.nctx = s.nctx := step_nctx hx
  rcases step_digest_cases hx with ⟨_, hdv, hdctx⟩ | hreset | ⟨cw, rest, c, ctx, _, _, hc, _, hdv, hdctx⟩
  · obtain ⟨hrange, hzero⟩ := hi
    rw [State.inRange_iff] at hrange
    exact ⟨by rwa [State.inRange_iff, hnctx, hdctx], by rwa [hdv, hdctx]⟩
  · exact State.dctxInv_of_reset (hnctx ▸ hn) hreset
  · have hlt : c.val < s.nctx := State.lt_nctx_of_context? hc
    exact ⟨by rwa [State.inRange_iff, hnctx, hdctx], fun hfalse => by cases hdv.symm.trans hfalse⟩

/-- Every step, the reset event too, keeps a recorded failure sticky. -/
theorem step_stickyOfLast_of_any {s t : State} (hi : s.StickyOfLast) (hx : step s = .next t) : t.StickyOfLast := by
  by_cases hreset : s.pending.head? = some .reset
  · obtain ⟨rest, hp⟩ := List.head?_eq_some_iff.mp hreset
    obtain ⟨_, hlast⟩ := stickyRecordsFailure.2.2 s t rest hp hx
    exact fun hl => absurd hlast hl
  · exact step_stickyOfLast hi hreset hx

/-- Settles O40: each clause of the invariant is kept by a lemma of its own, and NCTX never changes. -/
theorem invariantKeptByStep : Obligations.InvariantKeptByStep := by
  intro s t hi hx
  have hnctx : t.nctx = s.nctx := step_nctx hx
  obtain ⟨hrange, hzero⟩ := step_dctxInv hi.one_le_nctx ⟨hi.dctx_in_range, hi.dctx_of_dv⟩ hx
  exact {
    one_le_nctx := hnctx ▸ hi.one_le_nctx
    nctx_le := hnctx ▸ hi.nctx_le
    contexts := step_contextsInv hi.contexts hx
    sticky_of_last := step_stickyOfLast_of_any hi.sticky_of_last hx
    dctx_in_range := hrange
    dctx_of_dv := hzero }

/-- After reset the machine of `N` slots meets the invariant. -/
theorem State.inv_resetWith {N : Nat} (h1 : 1 ≤ N) (h16 : N ≤ 16) : (State.resetWith N).Inv := by
  obtain ⟨hrange, hzero⟩ := State.dctxInv_of_reset (s := State.resetWith N) (by simpa using h1) rfl
  exact {
    one_le_nctx := by simpa using h1
    nctx_le := by simpa using h16
    contexts := State.contextsInv_of_none fun c => State.context?_resetWith c N
    sticky_of_last := fun hl => absurd rfl hl
    dctx_in_range := hrange
    dctx_of_dv := hzero }

/-- Settles O41: every allowed NCTX, and the model's own 2. -/
theorem invariantAtReset : Obligations.InvariantAtReset :=
  ⟨fun _ => State.inv_resetWith, State.inv_resetWith (by decide) (by decide)⟩

end Sys2Proof.Machine
end

section
/-! SUPPORT. Steps and runs: they complete (R240), the digest DOUT holds over a run (R206), one slot's view of a run (R35), and DOC's machine of contexts (R164, R173 to R176). -/

namespace Sys2Proof.Machine

/-! ## Every step and every run completes (R240) -/

theorem step_completes (s : State) : ∃ t, step s = .next t := by
  cases hp : s.pending with
  | nil => exact ⟨s, step_of_nil hp⟩
  | cons a rest =>
    rw [step_of_cons hp]
    exact perform_completes a _

/-- A run of `n` steps takes `n` interactions off the queue, or all there are. -/
theorem run_completes_drop (n : Nat) (s : State) : ∃ t, run n s = .next t ∧ t.pending = s.pending.drop n := by
  induction n generalizing s with
  | zero => exact ⟨s, rfl, rfl⟩
  | succ n ih =>
    obtain ⟨u, hu⟩ := step_completes s
    obtain ⟨t, ht, hpt⟩ := ih u
    exact ⟨t, (run_succ hu n).trans ht, by rw [hpt, step_pending hu, List.drop_tail]⟩

/-- Settles O36: a command, a step, and by induction a run. -/
theorem everyStepCompletes : Obligations.EveryStepCompletes :=
  ⟨exec_completes, step_completes, run_completes_drop⟩

/-! ## The digest DOUT holds (R206) -/

/-- A run of at least one step makes its last step from where the others lead. -/
theorem run_succ_last {n : Nat} {s t : State} (hx : run (n + 1) s = .next t) :
    ∃ u, run n s = .next u ∧ step u = .next t := by
  obtain ⟨u, hu, _⟩ := run_completes_drop n s
  obtain ⟨v, hv⟩ := step_completes u
  have hrun : run (n + 1) s = .next v := by rw [run_add hu, run_succ hv, run_zero]
  cases hrun.symm.trans hx
  exact ⟨u, hu, hv⟩

/-- Settles O33: DV is 0 at reset, and each step keeps the digest an earlier step wrote or writes one itself. -/
theorem doutHoldsTheDigestOfDctx : Obligations.DoutHoldsTheDigestOfDctx := by
  intro N n acts t hx hdv
  induction n generalizing t with
  | zero =>
    cases hx
    simp [Status.reset] at hdv
  | succ n ih =>
    obtain ⟨u, hu, hstep⟩ := run_succ_last hx
    rcases stepKeepsOrWritesTheDigest u t hstep hdv with ⟨hdout, hdvu, hdctx⟩ | ⟨cw, rest, ctx, hp, hd, hc, hdout⟩
    · obtain ⟨k, v, cw, rest, ctx, hk, hv, hp, hd, hc, hdoutu⟩ := ih u hu hdvu
      rw [← hdctx] at hd hc
      exact ⟨k, v, cw, rest, ctx, by omega, hv, hp, hd, hc, hdout.trans hdoutu⟩
    · exact ⟨n, u, cw, rest, ctx, n.lt_succ_self, hu, hp, hd, hc, hdout⟩

/-! ## One slot's view of a run (R35, R63, R212) -/

/-- Two states agree on NCTX and on slot `c`. -/
def State.AgreeAt (c : SlotIdx) (s t : State) : Prop := s.nctx = t.nctx ∧ s.context? c = t.context? c

/-- No interaction changes NCTX. -/
theorem perform_nctx {a : HostAction} {s t : State} (hx : perform a s = .next t) : t.nctx = s.nctx := by
  have hstep : step (s.withPending (a :: s.pending)) = .next t := (step_of_cons rfl).trans hx
  exact step_nctx (s := s.withPending (a :: s.pending)) hstep

/-- A command that writes slot `c` and is no COPY names no other slot. -/
theorem eq_of_mem_slotsTouched {i : Instr} {c : SlotIdx} (hw : c ∈ slotsWritten i) (hcopy : ∀ src, i ≠ .copy c src) :
    ∀ d ∈ slotsTouched i, d = c := by
  cases i with
  | init e => simpa [slotsWritten, slotsTouched, eq_comm] using hw
  | absorb e bytes => simpa [slotsWritten, slotsTouched, eq_comm] using hw
  | digest e => simp [slotsWritten] at hw
  | copy e src =>
    obtain rfl : c = e := by simpa [slotsWritten] using hw
    exact absurd rfl (hcopy src)

/-- An interaction that does not write the slot leaves a state that agrees with the one before. -/
theorem State.AgreeAt.perform_left {a : HostAction} {c : SlotIdx} {s t u : State} (ha : s.AgreeAt c u)
    (hw : a.writesSlot c = false) (hx : perform a s = .next t) : t.AgreeAt c u := by
  obtain ⟨hn, hc⟩ := ha
  exact ⟨(perform_nctx hx).trans hn, (perform_context?_of_not_writesSlot hx hw).trans hc⟩

/-- An interaction that writes the slot and is no COPY into it does the same in states that agree. -/
theorem State.AgreeAt.perform_both {a : HostAction} {c : SlotIdx} {s u t v : State} (ha : s.AgreeAt c u)
    (hw : a.writesSlot c = true) (hcopy : ∀ cw src, a = .command cw → decode cw ≠ .command (.copy c src))
    (hs : perform a s = .next t) (hu : perform a u = .next v) : t.AgreeAt c v := by
  obtain ⟨hn, hc⟩ := ha
  refine ⟨(perform_nctx hs).trans (hn.trans (perform_nctx hu).symm), ?_⟩
  cases a with
  | command cw =>
    cases hd : decode cw with
    | illegal e => simp [HostAction.writesSlot, hd] at hw
    | command i =>
      have hmem : c ∈ slotsWritten i := by simpa [HostAction.writesSlot, hd] using hw
      have htouched := eq_of_mem_slotsTouched hmem fun src hi => hcopy cw src rfl (hi ▸ hd)
      have hexec : ∀ r : State, perform (.command cw) r = exec i r := runWord_of_command hd
      obtain ⟨t', v', ht, hv, _, hagree, _⟩ :=
        commandsReadOnlyTheirSlots i s u hn fun d hdmem => htouched d hdmem ▸ hc
      cases ht.symm.trans ((hexec s).symm.trans hs)
      cases hv.symm.trans ((hexec u).symm.trans hu)
      exact hagree c hmem
  | readStatus => simp [HostAction.writesSlot] at hw
  | readDout w => simp [HostAction.writesSlot] at hw
  | reset =>
    cases hs
    cases hu
    simp

/-- Two runs from states that agree on the slot, the second with only the interactions that write it, end in states that
agree on it. -/
theorem run_filter_writesSlot {c : SlotIdx} {acts : List HostAction} {s u t v : State}
    (hcopy : ∀ a ∈ acts, ∀ cw src, a = .command cw → decode cw ≠ .command (.copy c src))
    (hps : s.pending = acts) (hpu : u.pending = acts.filter (HostAction.writesSlot c)) (ha : s.AgreeAt c u)
    (ht : run acts.length s = .next t) (hv : run (acts.filter (HostAction.writesSlot c)).length u = .next v) :
    t.AgreeAt c v := by
  induction acts generalizing s u with
  | nil =>
    cases ht
    cases hv
    exact ha
  | cons a acts ih =>
    have hcopyacts := fun b hb => hcopy b (List.mem_cons_of_mem a hb)
    obtain ⟨s', hs', ht⟩ := run_succ_cases ht
    rw [step_of_cons hps] at hs'
    cases hw : a.writesSlot c with
    | false =>
      have hoffered : (s.withPending acts).AgreeAt c u := ha
      rw [List.filter_cons_of_neg (by simp [hw])] at hpu hv
      exact ih hcopyacts (perform_pending hs') hpu (hoffered.perform_left hw hs') ht hv
    | true =>
      have hoffered : (s.withPending acts).AgreeAt c (u.withPending (acts.filter (HostAction.writesSlot c))) := ha
      rw [List.filter_cons_of_pos hw] at hpu hv
      obtain ⟨u', hu', hv⟩ := run_succ_cases hv
      rw [step_of_cons hpu] at hu'
      have hagree : s'.AgreeAt c u' := hoffered.perform_both hw (hcopy a List.mem_cons_self) hs' hu'
      exact ih hcopyacts (perform_pending hs') (perform_pending hu') hagree ht hv

/-- Settles O51: both runs complete, and they start from one state. -/
theorem slotSeesOnlyItsOwnCommands : Obligations.SlotSeesOnlyItsOwnCommands := by
  intro s c acts hcopy
  obtain ⟨t, ht, _⟩ := run_completes_drop acts.length (s.withPending acts)
  obtain ⟨u, hu, _⟩ := run_completes_drop (acts.filter (HostAction.writesSlot c)).length
    (s.withPending (acts.filter (HostAction.writesSlot c)))
  have hstart : (s.withPending acts).AgreeAt c (s.withPending (acts.filter (HostAction.writesSlot c))) := ⟨rfl, rfl⟩
  obtain ⟨_, hctx⟩ := run_filter_writesSlot hcopy rfl rfl hstart ht hu
  exact ⟨t, u, ht, hu, hctx⟩

/-! ## DOC's machine of contexts (R164, R173 to R176) -/

/-- The engine has a slot for each of the messages' places. -/
theorem Represents.nctx {s : State} {m : Messages} (hm : Represents s m) : s.nctx = m.length := by
  rw [State.nctx, hm, List.length_map]

/-- A slot holds the context of its message, or neither is there. -/
theorem Represents.context?_cases {s : State} {m : Messages} (hm : Represents s m) (c : SlotIdx) :
    (∃ x, m[c.val]? = some (some x) ∧ s.context? c = some (absorbBytes Context.fresh x))
    ∨ (m[c.val]?.join = none ∧ s.context? c = none) := by
  have hctx : s.context? c = m[c.val]?.join.map (absorbBytes Context.fresh) := by
    rw [State.context?, hm, List.getElem?_map]
    cases m[c.val]? <;> rfl
  cases hx : m[c.val]?.join with
  | none => exact .inr ⟨rfl, by rw [hctx, hx]; rfl⟩
  | some x => exact .inl ⟨x, Option.join_eq_some_iff.mp hx, by rw [hctx, hx]; rfl⟩

/-- Writing a message's context into a slot is putting the message in its place. -/
theorem Represents.setSlot {s : State} {m : Messages} (hm : Represents s m) (c : SlotIdx) (x : List Byte) :
    Represents (s.setSlot c (absorbBytes Context.fresh x)) (m.set c.val (some x)) := by
  rw [Represents, State.setSlot_slots, hm, List.map_set]
  rfl

/-- Where there is no slot there is no place either. -/
theorem Represents.set_of_nctx_le {s : State} {m : Messages} (hm : Represents s m) {c : SlotIdx}
    (hc : s.nctx ≤ c.val) (x : Option (List Byte)) : m.set c.val x = m :=
  List.set_eq_of_length_le (hm.nctx ▸ hc)

/-- DOC's update of a message appends to it. -/
theorem docCommand_absorb_of_some {m : Messages} {c : SlotIdx} {x : List Byte} (hx : m[c.val]? = some (some x))
    (bytes : List Byte) : docCommand (.absorb c bytes) m = m.set c.val (some (x ++ bytes)) := by
  simp [docCommand, hx]

/-- DOC's update of a place without a message changes nothing. -/
theorem docCommand_absorb_of_none {m : Messages} {c : SlotIdx} (hn : m[c.val]?.join = none) (bytes : List Byte) :
    docCommand (.absorb c bytes) m = m := by
  rw [docCommand]
  split <;> simp_all

/-- DOC's copy of a message puts it in the destination's place. -/
theorem docCommand_copy_of_some {m : Messages} {src : SlotIdx} {x : List Byte} (hx : m[src.val]? = some (some x))
    (d : SlotIdx) : docCommand (.copy d src) m = m.set d.val (some x) := by
  simp [docCommand, hx]

/-- DOC's copy from a place without a message changes nothing. -/
theorem docCommand_copy_of_none {m : Messages} {src : SlotIdx} (hn : m[src.val]?.join = none) (d : SlotIdx) :
    docCommand (.copy d src) m = m := by
  rw [docCommand]
  split <;> simp_all

/-- A slot without a context cannot be read. -/
theorem State.readSlot_error_of_none {s : State} {c : SlotIdx} (hn : s.context? c = none) :
    ∃ code, s.readSlot c = .error code := by
  rcases s.readSlot_cases c with ⟨ctx, hc, _⟩ | ⟨_, hr⟩ | ⟨_, _, hr⟩
  · cases hn.symm.trans hc
  · exact ⟨_, hr⟩
  · exact ⟨_, hr⟩

/-- Each command does to the contexts what DOC's operation does to the messages; where its checks fail both change
nothing. -/
theorem Represents.exec {i : Instr} {s t : State} {m : Messages} (hm : Represents s m) (hx : exec i s = .next t) :
    Represents t (docCommand i m) := by
  cases i with
  | init c =>
    by_cases hc : c.val < s.nctx
    · cases (exec_init hc).symm.trans hx
      exact hm.setSlot c []
    · cases (exec_init_of_nctx_le (Nat.not_lt.mp hc)).symm.trans hx
      rw [docCommand, hm.set_of_nctx_le (Nat.not_lt.mp hc)]
      exact hm
  | absorb c bytes =>
    rcases hm.context?_cases c with ⟨x, hmsg, hc⟩ | ⟨hnone, hc⟩
    · cases (exec_absorb hc bytes).symm.trans hx
      rw [docCommand_absorb_of_some hmsg, ← absorbBytes_append]
      exact hm.setSlot c (x ++ bytes)
    · obtain ⟨code, hr⟩ := State.readSlot_error_of_none hc
      cases (exec_absorb_of_error hr bytes).symm.trans hx
      rw [docCommand_absorb_of_none hnone]
      exact hm
  | digest c =>
    rcases hm.context?_cases c with ⟨x, _, hc⟩ | ⟨_, hc⟩
    · cases (exec_digest hc).symm.trans hx
      exact hm
    · obtain ⟨code, hr⟩ := State.readSlot_error_of_none hc
      cases (exec_digest_of_error hr).symm.trans hx
      exact hm
  | copy d src =>
    by_cases hd : d.val < s.nctx
    · rcases hm.context?_cases src with ⟨x, hmsg, hc⟩ | ⟨hnone, hc⟩
      · cases (exec_copy hd hc).symm.trans hx
        rw [docCommand_copy_of_some hmsg]
        exact hm.setSlot d x
      · obtain ⟨code, hr⟩ := State.readSlot_error_of_none hc
        cases (exec_copy_of_error hd hr).symm.trans hx
        rw [docCommand_copy_of_none hnone]
        exact hm
    · cases (exec_copy_of_nctx_le (Nat.not_lt.mp hd) src).symm.trans hx
      rcases hm.context?_cases src with ⟨x, hmsg, _⟩ | ⟨hnone, _⟩
      · rw [docCommand_copy_of_some hmsg, hm.set_of_nctx_le (Nat.not_lt.mp hd)]
        exact hm
      · rw [docCommand_copy_of_none hnone]
        exact hm

/-- The state right after reset, and the reset event, leave every place without a message. -/
theorem represents_replicate_none {s : State} {n : Nat} (hs : s.slots = List.replicate n none) :
    Represents s (List.replicate n none) := by
  rw [Represents, hs, List.map_replicate]
  rfl

/-- Each interaction does to the contexts what DOC's machine does to the messages. -/
theorem Represents.perform {a : HostAction} {s t : State} {m : Messages} (hm : Represents s m)
    (hx : perform a s = .next t) : Represents t (docStep a m) := by
  cases a with
  | command cw =>
    rcases runWord_cases hx with ⟨e, hd, rfl⟩ | ⟨i, hd, hi⟩
    · simp only [docStep, hd]
      exact hm
    · simp only [docStep, hd]
      exact hm.exec hi
  | readStatus =>
    cases hx
    exact hm
  | readDout w =>
    cases hx
    exact (s.readDout_slots w).trans hm
  | reset =>
    cases hx
    rw [docStep, ← hm.nctx]
    exact represents_replicate_none rfl

/-- Settles O52: the simulation by `Represents.perform`; DIGEST finalizes the context of the message, which is the
message's RIPEMD-160. -/
theorem engineRefinesDocContexts : Obligations.EngineRefinesDocContexts := by
  refine ⟨fun N => represents_replicate_none rfl, fun s t m a rest hm hp hx => ?_⟩
  have hmrest : Represents (s.withPending rest) m := hm
  rw [step_of_cons hp] at hx
  refine ⟨hmrest.perform hx, fun cw c x ha hd hmsg => ?_⟩
  subst ha
  rcases hmrest.context?_cases c with ⟨y, hmsg', hc⟩ | ⟨hnone, _⟩
  · cases hmsg'.symm.trans hmsg
    have hexec : exec (.digest c) (s.withPending rest) = .next t := (runWord_of_command hd _).symm.trans hx
    cases (exec_digest hc).symm.trans hexec
    exact ⟨finalize_absorbBytes_fresh x, rfl⟩
  · simp [hmsg] at hnone

end Sys2Proof.Machine
end

section
/-! SUPPORT. The tables and the rotation (R10, R100 to R112), the compression vectors (V-CMP), and the context a message leaves (R22 to R24). -/

namespace Sys2Proof.Machine

/-! ## The tables (R100 to R109) -/

/-- Settles O8: the rows are read off the tables; the recurrence holds as each line applies ρ once more per round. -/
theorem permutationTables : Obligations.PermutationTables := by
  refine ⟨by decide, ?_, fun _ => rfl, by decide, fun _ => rfl, fun _ => rfl, fun _ _ => ⟨rfl, rfl⟩, by decide,
    by decide⟩
  have hinj : Function.Injective rho := by decide
  exact Finite.injective_iff_bijective.mp hinj

/-- Settles O9: the schedules are defined by the base amounts, whose 80 values are read off. -/
theorem rotationSchedules : Obligations.RotationSchedules :=
  ⟨fun _ _ => ⟨rfl, rfl⟩, by decide, by decide, by decide⟩

/-- Settles O10: both bounds of each root, and the values, are computed. -/
theorem roundConstantsAreRoots : Obligations.RoundConstantsAreRoots :=
  ⟨by decide, by decide, by decide⟩

/-! ## The rotation (R10) -/

/-- Bit `i` of a left rotation is bit `i - s` of the word, counted modulo 32. -/
theorem getLsbD_rol32 (v : Word) {s i : Nat} (hs : s ≤ 31) (hi : i < 32) :
    (rol32 v s).getLsbD i = v.getLsbD ((i + 32 - s) % 32) := by
  have hs32 : s < 32 := by omega
  rw [rol32_eq_rotateLeft v hs32, BitVec.getLsbD_rotateLeft_of_le hs32]
  by_cases hlt : i < s
  · have hpos : (i + 32 - s) % 32 = 32 - s + i := by omega
    simp [hlt, hpos]
  · have hpos : (i + 32 - s) % 32 = i - s := by omega
    simp [hlt, hpos, hi]

/-- Settles O12: the bits by `getLsbD_rol32`, the amounts by the range of the base amounts. -/
theorem rotateLeftMovesBits : Obligations.RotateLeftMovesBits := by
  obtain ⟨_, _, _, hrange⟩ := rotationSchedules
  refine ⟨fun v s i hs hi => getLsbD_rol32 v hs hi, fun v => ?_, fun r i => ?_⟩
  · refine BitVec.eq_of_getLsbD_eq fun i hi => ?_
    have hpos : (i + 32 - 0) % 32 = i := by omega
    rw [getLsbD_rol32 v (by omega) hi, hpos]
  · obtain ⟨hl5, hl15⟩ := hrange r (PL r i)
    obtain ⟨hr5, hr15⟩ := hrange r (PR r i)
    exact ⟨hl5, hl15, hr5, hr15⟩

/-! ## The initial value (R112) -/

/-- Settles O13: the words are read off the bytes, and INIT of a slot in range writes the fresh context. -/
theorem initialValueWords : Obligations.InitialValueWords := by
  refine ⟨by decide, by decide, fun s c hc => ?_⟩
  exact ⟨_, Context.fresh, exec_init hc, State.context?_setSlot_self hc _, rfl⟩

/-! ## Fixed vectors (V-CMP, V-KAT) -/

/-- Settles O16: each vector is one computation. -/
theorem compressionExamples : Obligations.CompressionExamples := by
  refine ⟨?_, ?_, ?_, ?_, ?_, ?_, ?_⟩ <;> decide +kernel

/-- Settles O58: the six digests are computed. -/
theorem knownAnswerDigests : Obligations.KnownAnswerDigests := by
  unfold Obligations.KnownAnswerDigests
  decide +kernel

/-! ## The context of a message (R22, R23, R24) -/

/-- Draining compresses the whole blocks and leaves the rest. -/
theorem drain_eq {n : Nat} (h : HashState) {buf : List Byte} (hn : buf.length / 64 = n) :
    drain n h buf = (compressBlocks h (buf.take (64 * n)), buf.drop (64 * n)) := by
  induction n generalizing h buf with
  | zero => simp [drain]
  | succ n ih =>
    have h64 : 64 ≤ buf.length := by omega
    have hblock : (buf.take 64).length = 64 := List.length_take_of_le h64
    have hrest : (buf.drop 64).length / 64 = n := by
      rw [List.length_drop]
      omega
    have hcount : 64 * (n + 1) = 64 + 64 * n := by omega
    rw [drain, if_pos h64, ih _ hrest, List.drop_drop, hcount, List.take_add, compressBlocks_block_append _ hblock]

/-- The fresh context after a message, as a whole: absorbing is DOC's update, which drains the whole blocks. -/
theorem absorbBytes_fresh_eq (m : List Byte) :
    absorbBytes Context.fresh m = ⟨compressBlocks IV (m.take (64 * (m.length / 64))), 0#64 + BitVec.ofNat 64 m.length,
      m.drop (64 * (m.length / 64))⟩ := by
  have hbuf : Context.fresh.buf ++ m = m := rfl
  rw [absorbBytes_eq_docUpdate Context.fresh_inv, docUpdate, hbuf, drain_eq _ rfl]
  rfl

/-- Settles O22: the three fields of the context. -/
theorem contextOfMessage : Obligations.ContextOfMessage := by
  intro m
  have hctx := absorbBytes_fresh_eq m
  exact ⟨congrArg Context.h hctx, congrArg Context.buf hctx, (congrArg (·.cnt.toNat) hctx).trans (by simp)⟩

end Sys2Proof.Machine
end

section
/-! SUPPORT. The STATUS word (R28), the host's steps and reads (R51, R59, R160), and the host's text (R190 to R193). -/

namespace Sys2Proof.Machine

/-! ## The STATUS word (R28) -/

/-- The STATUS word is made of its seven fields, each in its place. -/
theorem Status.word_fields (st : Status) :
    st.word.extractLsb' 12 20 = 0#20 ∧ st.word.extractLsb' 8 4 = BitVec.ofNat 4 st.dctx.val
    ∧ st.word.extractLsb' 6 2 = 0#2 ∧ st.word.extractLsb' 5 1 = BitVec.ofBool st.dv
    ∧ st.word.extractLsb' 4 1 = BitVec.ofBool st.sticky ∧ st.word.extractLsb' 0 4 = st.last.number := by
  have hwhole : st.word.extractLsb' 0 (20 + 4 + 2 + 1 + 1 + 4) = 0#20 ++ BitVec.ofNat 4 st.dctx.val ++ 0#2
      ++ BitVec.ofBool st.dv ++ BitVec.ofBool st.sticky ++ st.last.number := BitVec.extractLsb'_eq_self
  simpa only [extractLsb'_eq_append_iff, and_assoc] using hwhole

/-- A field of one bit is that bit. -/
theorem getLsbD_of_extractLsb'_eq_ofBool {w : Nat} {v : BitVec w} {k : Nat} {b : Bool}
    (h : v.extractLsb' k 1 = BitVec.ofBool b) : v.getLsbD k = b := by
  simpa using congrArg (BitVec.getLsbD · 0) h

/-- The result codes are 0 to 4 (R201). -/
theorem ResultCode.number_le (code : ResultCode) : code.number.toNat ≤ 4 := by
  cases code <;> decide

/-- Settles O34: the word's fields one by one. -/
theorem statusWordFields : Obligations.StatusWordFields := by
  intro st
  obtain ⟨hhigh, hdctx, hmid, hdv, hsticky, hlast⟩ := st.word_fields
  exact ⟨hlast, st.last.number_le, getLsbD_of_extractLsb'_eq_ofBool hsticky, getLsbD_of_extractLsb'_eq_ofBool hdv,
    hmid, hdctx, hhigh⟩

/-! ## Steps and reads (R51, R59, R160) -/

/-- A step with a command word next runs the word. -/
theorem step_of_command {s : State} {cw : U64} {rest : List HostAction} (hp : s.pending = .command cw :: rest) :
    step s = runWord cw (s.withPending rest) := step_of_cons hp

/-- Settles O35: a command word next, by its verdict, or nothing next. -/
theorem stepRunsTheDecodedCommand : Obligations.StepRunsTheDecodedCommand := by
  intro s cw rest
  refine ⟨fun hp i hd => ?_, fun hp hd => ?_, fun hp hd => ?_, step_of_nil⟩
  · exact (step_of_command hp).trans (runWord_of_command hd _)
  · exact (step_of_command hp).trans (runWord_of_illegal hd _)
  · exact (step_of_command hp).trans (runWord_of_illegal hd _)

/-- While DV is 1 a DOUT read returns the register. -/
theorem State.readDout_of_dv {s : State} (hdv : s.status.dv = true) (w : Fin 5) :
    s.readDout w = { s with readings := s.readings ++ [.dout w (s.dout.get w)] } := if_pos hdv

/-- While DV is 0 a DOUT read draws a free word. -/
theorem State.readDout_of_not_dv {s : State} (hdv : s.status.dv = false) (w : Fin 5) :
    s.readDout w = { s with readings := s.readings ++ [.dout w (Config.freeWord s.draws)], draws := s.draws + 1 } :=
  if_neg (by simp [hdv])

/-- A STATUS read returns the STATUS word and changes neither STATUS nor DOUT. -/
theorem step_of_readStatus {s : State} {rest : List HostAction} (hp : s.pending = .readStatus :: rest) :
    ∃ t, step s = .next t ∧ t.pending = rest ∧ t.status = s.status ∧ t.dout = s.dout
      ∧ t.readings = s.readings ++ [.status s.status.word] :=
  ⟨_, step_of_cons hp, rfl, rfl, rfl, rfl⟩

/-- A DOUT read returns one word, the register's while DV is 1, and changes neither STATUS nor DOUT. -/
theorem step_of_readDout {s : State} {w : Fin 5} {rest : List HostAction} (hp : s.pending = .readDout w :: rest) :
    ∃ t x, step s = .next t ∧ t.pending = rest ∧ t.status = s.status ∧ t.dout = s.dout
      ∧ t.readings = s.readings ++ [.dout w x] ∧ (s.status.dv = true → x = s.dout.get w) := by
  obtain ⟨x, hx, hdv⟩ : ∃ x, ((s.withPending rest).readDout w).readings = s.readings ++ [.dout w x]
      ∧ (s.status.dv = true → x = s.dout.get w) := by
    cases hdv : s.status.dv with
    | true => exact ⟨_, congrArg State.readings (State.readDout_of_dv (s := s.withPending rest) hdv w), fun _ => rfl⟩
    | false => exact ⟨_, congrArg State.readings (State.readDout_of_not_dv (s := s.withPending rest) hdv w), nofun⟩
  exact ⟨_, x, step_of_cons hp, by simp, by simp, by simp, hx, hdv⟩

theorem run_three {s t u v : State} (ht : step s = .next t) (hu : step t = .next u) (hv : step u = .next v) :
    run 3 s = .next v := by
  rw [run_succ ht, run_succ hu, run_succ hv, run_zero]

/-- Settles O37: single reads by what they return; of three in a row each finds the STATUS and the DOUT of the first. -/
theorem hostReads : Obligations.HostReads := by
  intro s rest w
  refine ⟨fun hp => step_of_cons hp,
    fun hp hdv => (step_of_cons hp).trans (congrArg _ (State.readDout_of_dv (s := s.withPending rest) hdv w)),
    fun hp hdv => (step_of_cons hp).trans (congrArg _ (State.readDout_of_not_dv (s := s.withPending rest) hdv w)),
    fun hp => ?_, fun hp hdv => ?_⟩
  · obtain ⟨t, ht, hpt, hst, _, hrt⟩ := step_of_readStatus hp
    obtain ⟨u, x, hu, hpu, hsu, _, hru, _⟩ := step_of_readDout hpt
    obtain ⟨v, hv, _, _, _, hrv⟩ := step_of_readStatus hpu
    exact ⟨v, s.status.word, x, run_three ht hu hv, by simp [hrv, hru, hrt, hsu, hst]⟩
  · obtain ⟨t, x, ht, hpt, hst, hdt, hrt, hx⟩ := step_of_readDout hp
    obtain ⟨u, hu, hpu, hsu, hdu, hru⟩ := step_of_readStatus hpt
    obtain ⟨v, y, hv, _, _, _, hrv, hy⟩ := step_of_readDout hpu
    have hdvu : u.status.dv = true := by rwa [hsu, hst]
    have hxy : y = x := by rw [hy hdvu, hx hdv, hdu, hdt]
    exact ⟨v, x, t.status.word, run_three ht hu hv, by simp [hrv, hru, hrt, hxy], hx hdv⟩

/-! ## There is no Finalized lock (R174) -/

/-- Settles O47: DIGEST writes no slot, and ABSORB makes the same change in states that agree on its slot. -/
theorem digestLocksNothing : Obligations.DigestLocksNothing := by
  intro s c e bytes hv
  obtain ⟨ctx, hc⟩ := (s.valid_iff c).mp hv
  rcases exec_agree (i := .absorb e bytes) (s₁ := (s.writeDigest c (finalize ctx)).complete) (s₂ := s) rfl
    (fun _ _ => rfl) with ⟨code, _, ht, hs⟩ | ⟨d, x, _, _, ht, hs⟩ | ⟨_, _, hi, _⟩
  · exact ⟨_, _, _, exec_digest hc, ht, hs, rfl, rfl⟩
  · exact ⟨_, _, _, exec_digest hc, ht, hs, rfl, rfl⟩
  · cases hi

/-! ## Text and hex (R190, R191) -/

theorem charByte_of_le {ch : Char} (hle : ch.toNat ≤ 255) : charByte ch = .ok (BitVec.ofNat 8 ch.toNat) := if_pos hle

theorem charByte_of_lt {ch : Char} (hlt : 255 < ch.toNat) : charByte ch = .error .encoding := if_neg (by omega)

/-- Text with all its code values in 0..255 maps character by character. -/
theorem textToBytes_of_forall_le {text : List Char} (hle : ∀ ch ∈ text, ch.toNat ≤ 255) :
    textToBytes text = .ok (text.map fun ch => BitVec.ofNat 8 ch.toNat) := by
  induction text with
  | nil => rfl
  | cons ch text ih =>
    obtain ⟨hch, htext⟩ := List.forall_mem_cons.mp hle
    simp [textToBytes, charByte_of_le hch, ih htext]

/-- Text with a code value above 255 is rejected, wherever it stands. -/
theorem textToBytes_of_exists_lt {text : List Char} (hlt : ∃ ch ∈ text, 255 < ch.toNat) :
    textToBytes text = .error .encoding := by
  induction text with
  | nil => simp at hlt
  | cons ch text ih =>
    by_cases hch : ch.toNat ≤ 255
    · have htext : ∃ ch ∈ text, 255 < ch.toNat := by simpa [Nat.not_lt.mpr hch] using hlt
      simp [textToBytes, charByte_of_le hch, ih htext]
    · simp [textToBytes, charByte_of_lt (Nat.not_le.mp hch)]

theorem length_hexByte (b : Byte) : (hexByte b).length = 2 := rfl

theorem length_digestBytes (h : HashState) : (digestBytes h).length = 20 := (digestByteOrder h).1

theorem length_hexdigest (h : HashState) : (hexdigest h).length = 40 := by
  simp [hexdigest, hexBytes, List.length_flatMap, length_hexByte, length_digestBytes]

/-- Digit `j` of byte `k` of word `w` stands at position `2(4w + k) + j` (R54, R191). -/
theorem getElem?_hexdigest (h : HashState) (w : Fin 5) (k : Fin 4) {j : Nat} (hj : j < 2) :
    (hexdigest h)[2 * (4 * w.val + k.val) + j]? = (hexByte ((h.get w).extractLsb' (8 * k.val) 8))[j]? := by
  obtain ⟨_, _, hbyte⟩ := digestByteOrder h
  rw [hexdigest, hexBytes, getElem?_flatMap_of_length length_hexByte hj, hbyte w k, Option.bind_some]

/-- Settles O56: text by its two cases, the digest's characters by their positions, the sixteen digits by evaluation. -/
theorem textAndHexConventions : Obligations.TextAndHexConventions := by
  refine ⟨fun _ => textToBytes_of_forall_le, fun _ => textToBytes_of_exists_lt, length_hexdigest, fun h w k => ?_,
    fun _ => rfl, by decide⟩
  exact ⟨getElem?_hexdigest h w k (j := 0) (by decide), getElem?_hexdigest h w k (j := 1) (by decide)⟩

/-! ## The legacy hash of a string (R192, R193) -/

/-- The words the DOUT reads returned are those of the reads' results. -/
theorem doutWords_map_dout (ws : List (Fin 5)) (f : Fin 5 → Word) :
    doutWords (ws.map fun w => .dout w (f w)) = ws.map f := by
  induction ws with
  | nil => rfl
  | cons w ws ih => rw [List.map_cons, doutWords, ih, List.map_cons]

/-- The host's one-shot digest is the bytes of RIPEMD-160. -/
theorem hostDigest_eq (bytes : List Byte) : hostDigest bytes = digestBytes (rmd160Words bytes) := by
  have hslot : (0 : SlotIdx).val < State.reset.nctx := by decide
  obtain ⟨_, t, ht, _, hreadings⟩ :=
    oneshotReadsTheDigest (State.reset.withPending (oneshotActions 0 bytes)) 0 bytes [] hslot (by simp)
  have hrun : runAll (State.reset.withPending (oneshotActions 0 bytes)) = .next t := ht
  have hwords : doutWords t.readings = (List.finRange 5).map (rmd160Words bytes).get := by
    rw [hreadings]
    exact doutWords_map_dout _ _
  rw [hostDigest, hrun, digestBytes_eq_flatMap, ← List.flatMap_map, ← hwords]

/-- Settles O55: a string by what its text maps to, its bytes by the one-shot digest. -/
theorem hashStringIsRmd160 : Obligations.HashStringIsRmd160 := by
  refine ⟨fun text bytes htext => ?_, fun text htext => ?_, rfl⟩
  · rw [hashString, htext, hexdigest, ← hostDigest_eq]
  · rw [hashString, htext]

end Sys2Proof.Machine
end
